-- ==== Sys2Proof/Syntax.lean ====
section
/-! DEFINITION. The command set of GOST-CORE, R51 and R109: one constructor for each row of the
opcode table. No command has an operand field (R52, R54), so no constructor has an argument. -/

namespace Sys2Proof

/-- The four commands of R51: the entire command set (R109). -/
inductive Instr where
  /-- `LDKEY`, R60: load the eight subkeys from `KEYBUF`. -/
  | ldkey
  /-- `LDSBOX`, R61: load the eight substitution tables from `SBOXBUF`. -/
  | ldsbox
  /-- `ENC`, R88: encrypt `INBUF` into `OUTBUF`. -/
  | enc
  /-- `DEC`, R89: decrypt `INBUF` into `OUTBUF`. -/
  | dec
deriving DecidableEq, Repr

end Sys2Proof
end

