-- ==== Sys2Proof/Word.lean ====
section
/-! DEFINITION. The word types of GOST-CORE (R4, R6): bytes, nibbles, u32 values, the Key and the
SubstitutionBank. -/

namespace Sys2Proof

/-- A byte, R6: a natural number in `[0, 255]`. -/
abbrev Byte := BitVec 8

/-- A nibble, R6: a natural number in `[0, 15]`. -/
abbrev Nibble := BitVec 4

/-- A u32, R6: every subkey, block half and round-function value (`HALF_BITS` of R4). -/
abbrev Word := BitVec 32

/-- The key registers `K[0..7]`, R11: eight u32 (`NKEYS` of R4). -/
abbrev Key := Vector Word 8

/-- The S-box bank `S[0..7][0..15]`, R13: eight tables of sixteen nibbles (`NTABLES` and
`TABLE_ENTRIES` of R4); any sixteen nibbles are a legal table. -/
abbrev Bank := Vector (Vector Nibble 16) 8

end Sys2Proof
end

