-- ==== Sys2Proof/Decode.lean ====
section
/-! DEFINITION. Decoding and encoding of commands: the opcode map of R51 as a list of mask and
match rows, the total decoder of R53, the encoder, and the fixed name the host reads the decoder
through. -/

namespace Sys2Proof

/-- Why a byte sequence is no command. -/
inductive DecodeError where
  /-- there is no byte to read -/
  | noByte
  /-- `Illegal`, R53: the byte is a reserved code (`0x00`, `0x05` to `0xFF`) -/
  | illegalCommand (code : Byte)
deriving DecidableEq, Repr

/-- One row of the opcode map of R51. -/
structure OpcodeRow where
  instr : Instr
  match8 : Byte
  mask8 : Byte
deriving DecidableEq, Repr

/-- The opcode map of R51: "A decoder compares all eight bits". -/
def opcodeTable : List OpcodeRow :=
  [ ⟨.ldkey, 0x01, 0xFF⟩,
    ⟨.ldsbox, 0x02, 0xFF⟩,
    ⟨.enc, 0x03, 0xFF⟩,
    ⟨.dec, 0x04, 0xFF⟩ ]

/-- The command a code selects, R51; `none` for a reserved code, R53. -/
def decodeCode (code : Byte) : Option Instr :=
  (opcodeTable.find? fun row => code &&& row.mask8 == row.match8).map OpcodeRow.instr

/-- The decoder of R50 and R53, total on every byte sequence: the command of the first byte with
the bytes left over, or the reason by name. -/
def decode : List Byte → Except DecodeError (Instr × List Byte)
  | [] => .error .noByte
  | code :: rest =>
    match decodeCode code with
    | some i => .ok (i, rest)
    | none => .error (.illegalCommand code)

/-- The code of a command, R51. -/
def encodeCode : Instr → Byte
  | .ldkey => 0x01
  | .ldsbox => 0x02
  | .enc => 0x03
  | .dec => 0x04

/-- The encoder, R50: "A command is exactly one byte long". -/
def encode (i : Instr) : List Byte := [encodeCode i]

/-- The bytes of an instruction given as the opcode table numbers its bits (bit 0 the least
significant bit of the first byte), filled with zero bits up to the longest instruction, one byte. -/
def tableBytes (nbits w : Nat) : List Byte :=
  (List.range (max 1 ((nbits + 7) / 8))).map fun k =>
    BitVec.ofNat 8 (w % 2 ^ nbits / 2 ^ (8 * k))

/-- The host's view of the decoder: the command read from the bits `w`; `none` where the decoder
refuses or bytes are left over (R50: exactly one byte). -/
def decodeTableWord (nbits w : Nat) : Option Instr :=
  match decode (tableBytes nbits w) with
  | .ok (i, []) => some i
  | .ok (_, _ :: _) => none
  | .error _ => none

end Sys2Proof
end

