-- ==== Sys2Proof/Machine/Script.lean ====
section
/-! DEFINITION. The buffer spaces (R20) and the moves of the two agents (R124, and the script
notation of R55). These are plain names; what a move does is in Machine/HostPort.lean and
Machine/Engine.lean. -/

namespace Sys2Proof

/-- The four buffer spaces of R20, each its own address space. -/
inductive Space where
  /-- the key buffer, written by the host, read by `LDKEY` -/
  | keybuf
  /-- the packed S-box buffer, written by the host, read by `LDSBOX` -/
  | sboxbuf
  /-- the input buffer, written by the host, read by `ENC` and `DEC` -/
  | inbuf
  /-- the output buffer, written by `ENC` and `DEC`, read by the host -/
  | outbuf
deriving DecidableEq, Repr

/-- One move of one agent (R124). A host command is the write of its code to register 0, `CMD`
(R15); the engine's turn is the "finish" step of R119. -/
inductive Event where
  /-- the engine has the turn: it finishes the executing command, or holds its state when idle -/
  | engine
  /-- `RESET` is asserted (R115) -/
  | reset
  /-- the host reads register `number` (R18) -/
  | readReg (number : Nat)
  /-- the host writes `value` to register `number` (R18) -/
  | writeReg (number value : Nat)
  /-- the host reads one byte of a buffer space (R10, R20) -/
  | readBuf (space : Space) (addr : Nat)
  /-- the host writes one byte of a buffer space (R10, R20) -/
  | writeBuf (space : Space) (addr : Nat) (value : Byte)
deriving DecidableEq, Repr

end Sys2Proof
end

