-- ==== Sys2Proof/Config.lean ====
section
/-! DEFINITION. What one implementation fixes (R4, R5) and the free values: constants with no body,
so that no proof can lean on what they are. -/

namespace Sys2Proof

/-- `KEY_BYTES` of R4: the exact length of the key buffer. -/
abbrev Config.keyBytes : Nat := 32

/-- `SBOX_BYTES` of R4: the least length of the S-box buffer. -/
abbrev Config.sboxBytes : Nat := 64

/-- `BLOCK_BYTES` of R4. -/
abbrev Config.blockBytes : Nat := 8

/-- How far `LEN_MAX` lies above its least value 64 (R5), or `none` when `LEN_MAX` is unbounded.
FREE: the implementation decides; log entry 8. -/
opaque Config.lenMaxAbove64 : Option Nat

/-- `LEN_MAX` of R5: at least 64, or `none` for unbounded. -/
def Config.lenMax : Option Nat := Config.lenMaxAbove64.map fun extra => 64 + extra

/-- `v ≤ LEN_MAX` (R5, R17). The first test needs no value of `LEN_MAX`, which is at least 64. -/
def Config.withinLenMax (v : Nat) : Bool :=
  decide (v ≤ 64) ||
    match Config.lenMaxAbove64 with
    | none => true
    | some extra => decide (v ≤ 64 + extra)

/-- FREE: the value of a byte of a space that nothing has written since RESET number `epoch`
(R24, R120); log entry 4. -/
opaque Config.unwrittenByte (epoch : Nat) (space : Space) (addr : Nat) : Byte

/-- FREE: the value of `N1` between commands (R12); log entry 3. -/
opaque Config.freeN1 (draw : Nat) : Word

/-- FREE: the value of `N2` between commands (R12); log entry 3. -/
opaque Config.freeN2 (draw : Nat) : Word

/-- FREE: the block index of the sequencer between commands (R16); log entry 3. -/
opaque Config.freeBlk (draw : Nat) : Nat

/-- FREE: the round index of the sequencer between commands (R16), in `[0,32]` (R10); log entry 3. -/
opaque Config.freeRnd (draw : Nat) : Fin 33

end Sys2Proof
end

