-- ==== Sys2Proof/Machine/State.lean ====
section
/-! DEFINITION. The state of GOST-CORE as plain data: everything R10 lists, plus the model's own
fields (the script of moves still to come and the counters behind the free values); the fault and
refusal reasons; the state after reset (R24, R115). -/

namespace Sys2Proof.Machine

/-- The completion codes of R101; a model's type "has exactly five constructors" (U6). -/
inductive ErrCode where
  /-- code 0: the command completed normally -/
  | ok
  /-- code 1: `LDKEY` with `KLEN ≠ 32` -/
  | invalidKeyLength
  /-- code 2: `LDSBOX` with `SLEN < 64` -/
  | invalidSBoxLength
  /-- code 3: `ENC` or `DEC` without a Key or a SubstitutionBank -/
  | notReady
  /-- code 4: a reserved command code -/
  | illegalCommand
deriving DecidableEq, Repr

/-- The working registers `N1` and `N2` of R12. -/
structure Work where
  n1 : Word
  n2 : Word
deriving DecidableEq, Repr

/-- The sequencer `(blk, rnd)` of R16; `rnd` is in `[0,32]` (R10). -/
structure Sequencer where
  blk : Nat
  rnd : Fin 33
deriving DecidableEq, Repr

/-- One buffer space (R20, R30): address and byte pairs, addresses strictly rising. An address with
no pair holds a byte that nothing has written: no value is listed for it (log entry 4), so no pair
equals what an unlisted address reads as. -/
abbrev Memory := List Host.Cell

/-- A run stops with a fault. -/
inductive Fault where
  /-- Raised by a host read or write of a buffer address at or above `LEN_MAX`, which is the
  largest number of bytes a space can present (R5): the address does not exist. Safe: the model
  stops where hardware with larger spaces would go on (log entry 8). -/
  | noSuchAddress (space : Space) (addr : Nat)
deriving DecidableEq, Repr

/-- A move has no meaning. -/
inductive Refusal where
  /-- Raised by `exec` for an instruction without a meaning; no arm uses it. Safe. -/
  | notModelled (mnemonic : String)
  /-- Raised by a host move other than a read of `STATUS` or a RESET while `BUSY = 1`
  (R121, U4: `refuse`). Safe: the outcome is undefined on the hardware (log entry 7). -/
  | hostActionWhileBusy
  /-- Raised by a host write of a length above `LEN_MAX` (R17, U7: `refuse`). Safe: the write has
  no defined meaning (log entry 8). -/
  | lengthAboveMax
  /-- Raised by a host read of `CMD`, an access to a register numbered 6 or above (R18, U10:
  `refuse`), a write to `CMD` of a value that is no byte (R15), or a host write to `OUTBUF` (R20:
  written by the engine only). Safe: the interface has no such operation (log entry 9). -/
  | noSuchOperation
  /-- Raised by a host read of `OUTBUF` at `OLEN` or above (R42, U3: `refuse`). Safe: the byte is
  unspecified on the hardware (log entry 5). -/
  | outbufBeyondOlen
deriving DecidableEq, Repr

/-- The state of GOST-CORE, R10. -/
structure State where
  /-- `K[0..7]`, R11 -/
  key : Key
  /-- `S[0..7][0..15]`, R13 -/
  bank : Bank
  /-- `N1` and `N2`, R12 -/
  work : Work
  /-- the sequencer, R16 -/
  seq : Sequencer
  /-- `STATUS.KEY_VALID`, R14 -/
  keyValid : Bool
  /-- `STATUS.SBOX_VALID`, R14 -/
  sboxValid : Bool
  /-- `STATUS.ERR`, R14 -/
  err : ErrCode
  /-- The code of the executing command, taken at the write to `CMD` (R15, R40); `none` when the
  engine is idle. `STATUS.BUSY` is 1 exactly when a command is executing (R14). -/
  running : Option Byte
  /-- `KLEN`, R17 -/
  klen : Nat
  /-- `SLEN`, R17 -/
  slen : Nat
  /-- `ILEN`, R17 -/
  ilen : Nat
  /-- `OLEN`, R17 -/
  olen : Nat
  /-- `KEYBUF`, R20 -/
  keybuf : Memory
  /-- `SBOXBUF`, R20 -/
  sboxbuf : Memory
  /-- `INBUF`, R20 -/
  inbuf : Memory
  /-- `OUTBUF[0 .. OLEN)`, R20, R42 -/
  outbuf : Memory
  /-- The model's own: the moves still to come, oldest first (log entry 6). -/
  schedule : List Event
  /-- The model's own: what the last host read returned (log entry 9). -/
  hostRead : Option Nat
  /-- The model's own: how many free values of `N1`, `N2` and the sequencer have been drawn
  (log entry 3). -/
  draws : Nat
  /-- The model's own: how many RESETs there have been (log entry 4). -/
  epoch : Nat
deriving DecidableEq, Repr

/-- The state after reset, R24 and R115. The spec gives `STATUS = 0x00` and the four lengths 0; it
leaves `K`, `S`, `N1`, `N2` and the sequencer unspecified, and the zeros here are the model's
(DESIGN CHOICE, log entries 1 and 2). -/
def State.reset : State where
  key := Vector.replicate 8 0
  bank := Vector.replicate 8 (Vector.replicate 16 0)
  work := ⟨0, 0⟩
  seq := ⟨0, 0⟩
  keyValid := false
  sboxValid := false
  err := .ok
  running := none
  klen := 0
  slen := 0
  ilen := 0
  olen := 0
  keybuf := []
  sboxbuf := []
  inbuf := []
  outbuf := []
  schedule := []
  hostRead := none
  draws := 0
  epoch := 0

end Sys2Proof.Machine
end

