-- ==== Sys2Proof/Machine/Ops.lean ====
section
/-! DEFINITION. The named operations everything else is written with: the byte order of R8, the
rotation of R7, the bit fields of R6, one buffer space as a list (R30), the four spaces of a state
and `MemRead` (R9, R20), how a command ends (`raise` and `complete`, R9 and R103), and the release
of the working registers at the end of `ENC` and `DEC` (R12). -/

namespace Sys2Proof.Machine

/-- `LE32`, R8: four bytes to one u32, the first byte the least significant. -/
def le32 (b0 b1 b2 b3 : Byte) : Word := b3 ++ b2 ++ b1 ++ b0

/-- `bytesLE32`, R8: one u32 to four bytes, the least significant first. -/
def bytesLE32 (v : Word) : List Byte :=
  [v.extractLsb' 0 8, v.extractLsb' 8 8, v.extractLsb' 16 8, v.extractLsb' 24 8]

/-- `rotl32(a, s)` of R7 for `s` in `[1,31]`: "wraparound rotation, not shift". -/
def rotl32 (a : Word) (s : Nat) : Word := (a <<< s) ||| (a >>> (32 - s))

/-- Nibble position `i` of a u32, R6. -/
def nibbleAt (v : Word) (i : Nat) : Nibble := v.extractLsb' (4 * i) 4

/-- The low nibble of an S-box byte, R61: `b & 0xF`. -/
def lowNibble (b : Byte) : Nibble := b.extractLsb' 0 4

/-- The high nibble of an S-box byte, R61: `(b >> 4) & 0xF`. -/
def highNibble (b : Byte) : Nibble := b.extractLsb' 4 4

/-- The byte a space lists at an address; `none` where nothing has written one. -/
def Memory.read : Memory → Nat → Option Byte
  | [], _ => none
  | (k, v) :: rest, a => if a = k then some v else Memory.read rest a

/-- Write one byte, keeping the addresses strictly rising. -/
def Memory.write : Memory → Nat → Byte → Memory
  | [], a, b => [(a, b)]
  | (k, v) :: rest, a, b =>
    if a < k then (a, b) :: (k, v) :: rest
    else if a = k then (a, b) :: rest
    else (k, v) :: Memory.write rest a b

/-- The space whose bytes from address `a` upward are `bs`, and nothing else. -/
def Memory.ofBytesFrom : Nat → List Byte → Memory
  | _, [] => []
  | a, b :: bs => (a, b) :: Memory.ofBytesFrom (a + 1) bs

/-- The canonical form: addresses strictly rising. (No entry can equal what an unlisted address
reads as, because that is no value.) -/
abbrev Memory.wf (m : Memory) : Prop := m.Pairwise fun p q => p.1 < q.1

/-- The contents of a space, R20. -/
def State.space (s : State) : Space → Memory
  | .keybuf => s.keybuf
  | .sboxbuf => s.sboxbuf
  | .inbuf => s.inbuf
  | .outbuf => s.outbuf

/-- `space[addr]`. A byte nothing has written since the last RESET has an unspecified value (R24,
R120): a free value, the same at every read (R33: reads are idempotent); log entry 4. -/
def State.byteAt (s : State) (sp : Space) (addr : Nat) : Byte :=
  match Memory.read (s.space sp) addr with
  | some b => b
  | none => Config.unwrittenByte s.epoch sp addr

/-- `MemRead(space, addr, n)`, R9: lowest address first. -/
def State.memRead (s : State) (sp : Space) (addr n : Nat) : List Byte :=
  (List.range n).map fun k => s.byteAt sp (addr + k)

/-- `complete`, R9: the command ends normally. -/
def State.complete (s : State) : State := { s with err := .ok, running := none }

/-- `raise E`, R103: the command ends at once with a completion code. `InvalidKeyLength` also clears
`KEY_VALID`, `InvalidSBoxLength` also clears `SBOX_VALID`; everything else keeps its value. This is
the engine's whole error mechanism: it has no traps (R100) and no return from one (R105). -/
def State.raise (s : State) (e : ErrCode) : State :=
  { s with
    err := e
    running := none
    keyValid := match e with
      | .invalidKeyLength => false
      | _ => s.keyValid
    sboxValid := match e with
      | .invalidSBoxLength => false
      | _ => s.sboxValid }

/-- At the end of `ENC` and `DEC` the working registers and the sequencer are unspecified (R12, R16,
U12): free values, one draw for each command; log entry 3. -/
def State.releaseWork (s : State) : State :=
  { s with
    work := ⟨Config.freeN1 s.draws, Config.freeN2 s.draws⟩
    seq := ⟨Config.freeBlk s.draws, Config.freeRnd s.draws⟩
    draws := s.draws + 1 }

end Sys2Proof.Machine
end

