-- ==== Sys2Proof/Machine/Round.lean ====
section
/-! DEFINITION. The round function `F`, R70: add the subkey, substitute nibble by nibble, rotate
left by 11. A pure function (R71). -/

namespace Sys2Proof.Machine

/-- The nibble positions of a u32, R6. -/
def nibblePositions : List (Fin 8) := [0, 1, 2, 3, 4, 5, 6, 7]

/-- `S[i][v]`, R13. -/
def Bank.entry (S : Bank) (i : Fin 8) (v : Nibble) : Nibble := S[i][v.toFin]

/-- The substitution of R70: table `i` serves nibble position `i`, and `s_i` goes back to bit
offset `4i`. -/
def substitute (S : Bank) (temp : Word) : Word :=
  nibblePositions.foldl
    (fun (subst : Word) i =>
      subst ||| ((Bank.entry S i (nibbleAt temp i.val)).setWidth 32 <<< (4 * i.val : Nat)))
    0

/-- `F(n, k, S)`, R70. -/
def roundF (n k : Word) (S : Bank) : Word := rotl32 (substitute S (n + k)) 11

end Sys2Proof.Machine
end

