-- ==== Sys2Proof/Machine/Feistel.lean ====
section
/-! DEFINITION. The Feistel engine: the round step (R75), the key-index tables (R76, R77), `ENCBLK`
(R78) and `DECBLK` (R79). -/

namespace Sys2Proof.Machine

/-- An ordered pair of u32 halves: an incoming block `(a, b)` or a returned pair `(r0, r1)`, the
first half on the wire first (R80). -/
structure Block where
  first : Word
  second : Word
deriving DecidableEq, Repr

/-- `ROUND(k)`, R75: both new values are computed from the old ones. -/
def feistelRound (S : Bank) (k : Word) (w : Work) : Work :=
  ⟨w.n2 ^^^ roundF w.n1 k S, w.n1⟩

/-- `KIDX_ENC`, R76. -/
def kidxEnc : List (Fin 8) :=
  [0, 1, 2, 3, 4, 5, 6, 7, 0, 1, 2, 3, 4, 5, 6, 7, 0, 1, 2, 3, 4, 5, 6, 7,
   7, 6, 5, 4, 3, 2, 1, 0]

/-- `KIDX_DEC`, R77. -/
def kidxDec : List (Fin 8) :=
  [0, 1, 2, 3, 4, 5, 6, 7, 7, 6, 5, 4, 3, 2, 1, 0, 7, 6, 5, 4, 3, 2, 1, 0,
   7, 6, 5, 4, 3, 2, 1, 0]

/-- The rounds of a list of subkey indices, in order (R82). -/
def runRounds (K : Key) (S : Bank) (order : List (Fin 8)) (w : Work) : Work :=
  order.foldl (fun w i => feistelRound S K[i] w) w

/-- One block under a key order, R78 and R79: `N1 <- a`, `N2 <- b`, the rounds, and the exit swap
`(N2, N1)`. -/
def cipherBlock (K : Key) (S : Bank) (order : List (Fin 8)) (blk : Block) : Block :=
  let w := runRounds K S order ⟨blk.first, blk.second⟩
  ⟨w.n2, w.n1⟩

/-- `ENCBLK`, R78. -/
def encBlk (K : Key) (S : Bank) (blk : Block) : Block := cipherBlock K S kidxEnc blk

/-- `DECBLK`, R79: "differs from `ENCBLK` only in the index table". -/
def decBlk (K : Key) (S : Bank) (blk : Block) : Block := cipherBlock K S kidxDec blk

end Sys2Proof.Machine
end

