-- ==== Sys2Proof/Machine/Flags.lean ====
section
/-! DEFINITION. `STATUS` (R14): the completion codes as numbers (R101), `BUSY`, the byte a host
reads, and the one test on the valid bits (R102). The engine has no arithmetic flags and no
condition codes (R19). -/

namespace Sys2Proof.Machine

/-- The number of a completion code, R101. -/
def ErrCode.code : ErrCode → BitVec 4
  | .ok => 0
  | .invalidKeyLength => 1
  | .invalidSBoxLength => 2
  | .notReady => 3
  | .illegalCommand => 4

/-- `STATUS.BUSY`, R14: a command is executing. -/
def State.busy (s : State) : Bool := s.running.isSome

/-- `STATUS` as a byte, R14: bit 0 `BUSY`, bit 1 `KEY_VALID`, bit 2 `SBOX_VALID`, bit 3 zero, bits
7:4 `ERR`. -/
def State.status (s : State) : Byte :=
  s.err.code ++ 0#1 ++ BitVec.ofBool s.sboxValid ++ BitVec.ofBool s.keyValid
    ++ BitVec.ofBool s.busy

/-- The condition under which `ENC` and `DEC` do not raise `NotReady`, R102. -/
def State.ready (s : State) : Bool := s.keyValid && s.sboxValid

end Sys2Proof.Machine
end

