-- ==== Sys2Proof/Machine/Operands.lean ====
section
/-! DEFINITION. The implicit operands of the commands (R52): the key words of `KEYBUF` (R60), the
S-box entries of `SBOXBUF` (R61), the input bytes of `INBUF` (R88), and the result in `OUTBUF`
(R42). -/

namespace Sys2Proof.Machine

/-- Word `i` of the key buffer, R60: `LE32` of `KEYBUF[4i .. 4i+4)`. -/
def State.keyWord (s : State) (i : Nat) : Word :=
  le32 (s.byteAt .keybuf (4 * i)) (s.byteAt .keybuf (4 * i + 1))
    (s.byteAt .keybuf (4 * i + 2)) (s.byteAt .keybuf (4 * i + 3))

/-- The Key of the key buffer, R60: all eight words. -/
def State.keyOperand (s : State) : Key := Vector.ofFn fun i => s.keyWord i.val

/-- Entry `v` of table `i` of the S-box buffer, R61: with `b = SBOXBUF[8i + j]`, entry `2j` is the
low nibble of `b` and entry `2j + 1` the high nibble. -/
def State.bankEntry (s : State) (i v : Nat) : Nibble :=
  if v % 2 = 0 then lowNibble (s.byteAt .sboxbuf (8 * i + v / 2))
  else highNibble (s.byteAt .sboxbuf (8 * i + v / 2))

/-- The SubstitutionBank of the S-box buffer, R61: all 128 entries. -/
def State.bankOperand (s : State) : Bank :=
  Vector.ofFn fun i => Vector.ofFn fun v => s.bankEntry i.val v.val

/-- `MemRead(INBUF, 0, ILEN)`, R88: the input bytes of `ENC` and `DEC`. -/
def State.input (s : State) : List Byte := s.memRead .inbuf 0 s.ilen

/-- The result `OUTBUF[0 .. OLEN)`, R42, as a host reads it. -/
def State.result (s : State) : List Byte := s.memRead .outbuf 0 s.olen

end Sys2Proof.Machine
end

