-- ==== Sys2Proof/Machine/BlockProcessor.lean ====
section
/-! DEFINITION. The block processor: padding (R85), zero fill (R90), block decode and encode (R86,
R87), and the commands `ENC` (R88) and `DEC` (R89). -/

namespace Sys2Proof.Machine

/-- How many bytes a sequence of length `L` lacks to a multiple of 8: `8 - (L mod 8)`, or 0 when
`L mod 8 = 0`. -/
def fillCount (L : Nat) : Nat :=
  if L % Config.blockBytes = 0 then 0 else Config.blockBytes - L % Config.blockBytes

/-- `PAD(bs)`, R85: `p` bytes of value `p`, none when the length is a multiple of 8. -/
def pad (bs : List Byte) : List Byte :=
  bs ++ List.replicate (fillCount bs.length) (BitVec.ofNat 8 (fillCount bs.length))

/-- R90: the last chunk of a `DEC` input keeps its bytes at the low end and is filled with zero
bytes at the high end. -/
def zeroFill (bs : List Byte) : List Byte :=
  bs ++ List.replicate (fillCount bs.length) 0

/-- The chunks of 8 bytes in increasing order (R96), each decoded into two little-endian halves, the
first four bytes the first half (R86). What is left when fewer than 8 bytes remain is no chunk;
`pad` and `zeroFill` leave none. -/
def blocksOf : List Byte → List Block
  | c0 :: c1 :: c2 :: c3 :: c4 :: c5 :: c6 :: c7 :: rest =>
    ⟨le32 c0 c1 c2 c3, le32 c4 c5 c6 c7⟩ :: blocksOf rest
  | _ => []

/-- The 8 output bytes of a returned pair, R87. -/
def Block.bytes (r : Block) : List Byte := bytesLE32 r.first ++ bytesLE32 r.second

/-- The end of the block loop of R88 and R89: returned pair number `blk` is stored at
`OUTBUF[8*blk .. 8*blk + 8)`, `OLEN <- 8 * nblk`, and the transient registers are released. Older
bytes of `OUTBUF` at `OLEN` and above are unspecified (R42) and no longer listed; log entry 5. -/
def State.deliver (s : State) (rs : List Block) : State :=
  State.releaseWork
    { s with
      outbuf := Memory.ofBytesFrom 0 (rs.flatMap Block.bytes)
      olen := Config.blockBytes * rs.length }

/-- `ENC`, R88: `NotReady` when a valid bit is 0, checked before `ILEN` is looked at; else the
padded input block by block through `ENCBLK`. -/
def execEnc (s : State) : Host.Outcome State Fault Refusal :=
  if s.ready then
    .next (s.deliver ((blocksOf (pad s.input)).map (encBlk s.key s.bank))).complete
  else
    .next (s.raise .notReady)

/-- `DEC`, R89: as `ENC`, with no padding, a short last chunk zero-filled (R90), and `DECBLK`;
nothing is stripped. -/
def execDec (s : State) : Host.Outcome State Fault Refusal :=
  if s.ready then
    .next (s.deliver ((blocksOf (zeroFill s.input)).map (decBlk s.key s.bank))).complete
  else
    .next (s.raise .notReady)

end Sys2Proof.Machine
end

