-- ==== Sys2Proof/Machine/Load.lean ====
section
/-! DEFINITION. The load commands `LDKEY` (R60) and `LDSBOX` (R61). -/

namespace Sys2Proof.Machine

/-- `LDKEY`, R60: `InvalidKeyLength` exactly when `KLEN ≠ 32`; else all eight key registers from
`KEYBUF` and `KEY_VALID = 1`. -/
def execLdkey (s : State) : Host.Outcome State Fault Refusal :=
  if s.klen = Config.keyBytes then
    .next (State.complete { s with key := s.keyOperand, keyValid := true })
  else
    .next (s.raise .invalidKeyLength)

/-- `LDSBOX`, R61: `InvalidSBoxLength` exactly when `SLEN < 64`; else all 128 entries from the first
64 bytes of `SBOXBUF` and `SBOX_VALID = 1`. -/
def execLdsbox (s : State) : Host.Outcome State Fault Refusal :=
  if s.slen < Config.sboxBytes then
    .next (s.raise .invalidSBoxLength)
  else
    .next (State.complete { s with bank := s.bankOperand, sboxValid := true })

end Sys2Proof.Machine
end

