-- ==== Sys2Proof/Machine/HostPort.lean ====
section
/-! DEFINITION. The host's side of the interface: RESET (R115 to R117), register reads and writes
(R15, R17, R18), buffer reads and writes (R20, R42), and the busy rule (R121). -/

namespace Sys2Proof.Machine

/-- RESET, R115: the state of R24, whatever the engine was doing (R117). The script of moves goes
on, what the host has read it keeps, draws are never repeated, and the buffer contents are
unspecified anew (R24): a new epoch. Log entry 12. -/
def State.resetSignal (s : State) : State :=
  { State.reset with
    schedule := s.schedule
    hostRead := s.hostRead
    draws := s.draws
    epoch := s.epoch + 1 }

/-- The host read returns `v`. -/
def State.returnToHost (s : State) (v : Nat) : State := { s with hostRead := some v }

/-- A host read of a register of the idle engine, R18; `CMD` and numbers from 6 on have none (U10). -/
def State.readRegister (s : State) (number : Nat) : Host.Outcome State Fault Refusal :=
  match number with
  | 1 => .next (s.returnToHost s.status.toNat)
  | 2 => .next (s.returnToHost s.klen)
  | 3 => .next (s.returnToHost s.slen)
  | 4 => .next (s.returnToHost s.ilen)
  | 5 => .next (s.returnToHost s.olen)
  | _ => .refused .noSuchOperation

/-- A host write of a register of the idle engine. Register 0, `CMD`, takes a byte and starts the
command of that code (R15); a write to `STATUS` or `OLEN` is ignored (R18); a length register takes
a value up to `LEN_MAX` (R17, U7); numbers from 6 on name no register (U10). -/
def State.writeRegister (s : State) (number value : Nat) : Host.Outcome State Fault Refusal :=
  match number with
  | 0 =>
    if value < 256 then .next { s with running := some (BitVec.ofNat 8 value) }
    else .refused .noSuchOperation
  | 1 => .next s
  | 2 =>
    if Config.withinLenMax value then .next { s with klen := value }
    else .refused .lengthAboveMax
  | 3 =>
    if Config.withinLenMax value then .next { s with slen := value }
    else .refused .lengthAboveMax
  | 4 =>
    if Config.withinLenMax value then .next { s with ilen := value }
    else .refused .lengthAboveMax
  | 5 => .next s
  | _ => .refused .noSuchOperation

/-- A host read of one byte of a space of the idle engine: an input space below `LEN_MAX` (R5,
R10), `OUTBUF` below `OLEN` (R42, U3). -/
def State.readBuffer (s : State) (sp : Space) (addr : Nat) : Host.Outcome State Fault Refusal :=
  match sp with
  | .outbuf =>
    if addr < s.olen then .next (s.returnToHost (s.byteAt .outbuf addr).toNat)
    else .refused .outbufBeyondOlen
  | .keybuf =>
    if Config.withinLenMax (addr + 1) then
      .next (s.returnToHost (s.byteAt .keybuf addr).toNat)
    else .fault (.noSuchAddress .keybuf addr)
  | .sboxbuf =>
    if Config.withinLenMax (addr + 1) then
      .next (s.returnToHost (s.byteAt .sboxbuf addr).toNat)
    else .fault (.noSuchAddress .sboxbuf addr)
  | .inbuf =>
    if Config.withinLenMax (addr + 1) then
      .next (s.returnToHost (s.byteAt .inbuf addr).toNat)
    else .fault (.noSuchAddress .inbuf addr)

/-- A host write of one byte of an input space of the idle engine (R20); `OUTBUF` is written by the
engine only. -/
def State.writeBuffer (s : State) (sp : Space) (addr : Nat) (b : Byte) :
    Host.Outcome State Fault Refusal :=
  match sp with
  | .outbuf => .refused .noSuchOperation
  | .keybuf =>
    if Config.withinLenMax (addr + 1) then
      .next { s with keybuf := Memory.write s.keybuf addr b }
    else .fault (.noSuchAddress .keybuf addr)
  | .sboxbuf =>
    if Config.withinLenMax (addr + 1) then
      .next { s with sboxbuf := Memory.write s.sboxbuf addr b }
    else .fault (.noSuchAddress .sboxbuf addr)
  | .inbuf =>
    if Config.withinLenMax (addr + 1) then
      .next { s with inbuf := Memory.write s.inbuf addr b }
    else .fault (.noSuchAddress .inbuf addr)

/-- The busy rule, R121: while `BUSY = 1` a host access other than a read of `STATUS` is refused. -/
def State.whenIdle (s : State) (act : Host.Outcome State Fault Refusal) :
    Host.Outcome State Fault Refusal :=
  if s.busy then .refused .hostActionWhileBusy else act

/-- A host read of a register, R18 under R121: `STATUS` can be read at any time. -/
def State.hostReadRegister (s : State) (number : Nat) : Host.Outcome State Fault Refusal :=
  if number = 1 then s.readRegister 1 else s.whenIdle (s.readRegister number)

end Sys2Proof.Machine
end

