-- ==== Sys2Proof/Machine/Engine.lean ====
section
/-! DEFINITION. One move of one agent: the engine's turn (the "finish" step of R119, with the
decoder of R53), the host's moves, and how a command given as an opcode-table word is placed where
the engine takes it. -/

namespace Sys2Proof.Machine

/-- The end of a command with a given code, R119: the meaning of the command it decodes to (R51),
or `IllegalCommand` for a reserved code (R53). -/
def runCode (code : Byte) (s : State) : Host.Outcome State Fault Refusal :=
  match decodeCode code with
  | some i => exec i s
  | none => .next (s.raise .illegalCommand)

/-- The engine's turn: finish the executing command, or hold the state when idle (R111, R115). -/
def engineTurn (s : State) : Host.Outcome State Fault Refusal :=
  match s.running with
  | some code => runCode code s
  | none => .next s

/-- What one move does to a state from whose script it has been taken. -/
def move (e : Event) (s : State) : Host.Outcome State Fault Refusal :=
  match e with
  | .engine => engineTurn s
  | .reset => .next s.resetSignal
  | .readReg number => s.hostReadRegister number
  | .writeReg number value => s.whenIdle (s.writeRegister number value)
  | .readBuf sp addr => s.whenIdle (s.readBuffer sp addr)
  | .writeBuf sp addr b => s.whenIdle (s.writeBuffer sp addr b)

/-- The next move of the script; when the script is empty the engine has the turn, so that every
command ends (R123). -/
def nextMove (s : State) : Host.Outcome State Fault Refusal :=
  match s.schedule with
  | [] => engineTurn s
  | e :: rest => move e { s with schedule := rest }

/-- `s` just after the host has written the first byte of an opcode-table word to `CMD` (R15), with
the engine to move next; log entry 10. -/
def State.placeCommand (s : State) (nbits w : Nat) : State :=
  { s with
    running := (tableBytes nbits w).head?
    schedule := .engine :: s.schedule }

end Sys2Proof.Machine
end

