-- ==== Sys2Proof/WellFormed.lean ====
section
/-! DEFINITION. Well-formedness. A command has no operand field (R52), so every `Instr` is well
formed; what can be ill formed is a move of the host's script (R55): a register or an access the
interface does not have (R18, U10), a value that is no byte or exceeds `LEN_MAX` (R15, R17), an
address that does not exist (R5). -/

namespace Sys2Proof

/-- R52: "No command carries an operand in its encoding", so there is nothing to check. -/
def Instr.wellFormed : Instr → Bool
  | .ldkey => true
  | .ldsbox => true
  | .enc => true
  | .dec => true

/-- R18: the register numbers the host can read: `STATUS`, `KLEN`, `SLEN`, `ILEN`, `OLEN`. -/
def Event.readableRegister (number : Nat) : Bool := decide (1 ≤ number ∧ number ≤ 5)

/-- R15, R17, R18: the register writes the host has. `CMD` takes a byte, a length register a value
up to `LEN_MAX`; a write to `STATUS` or `OLEN` is a write that is ignored. -/
def Event.registerWrite (number value : Nat) : Bool :=
  match number with
  | 0 => decide (value < 256)
  | 1 => true
  | 2 => Config.withinLenMax value
  | 3 => Config.withinLenMax value
  | 4 => Config.withinLenMax value
  | 5 => true
  | _ => false

/-- R20: the spaces the host writes are the three input spaces. -/
def Event.writableSpace : Space → Bool
  | .keybuf => true
  | .sboxbuf => true
  | .inbuf => true
  | .outbuf => false

/-- A move the interface has. For a read of `OUTBUF` there is a further condition on the state, the
address being below `OLEN` (U3), which `hostMove` checks. -/
def Event.wellFormed : Event → Bool
  | .engine => true
  | .reset => true
  | .readReg number => Event.readableRegister number
  | .writeReg number value => Event.registerWrite number value
  | .readBuf .outbuf _ => true
  | .readBuf _ addr => Config.withinLenMax (addr + 1)
  | .writeBuf space addr _ => Event.writableSpace space && Config.withinLenMax (addr + 1)

end Sys2Proof
end

