-- ==== Sys2Proof/Safety.lean ====
section
/-! DEFINITION. The terms claims are stated in: the invariant of the machine (R17, R23, R42, and the
link between completion codes and valid bits of R14), the chunks of R88 and R89 as functions of the
address, and which moves are host accesses. -/

namespace Sys2Proof.Machine

/-- The invariant between moves. -/
structure State.Inv (s : State) : Prop where
  /-- the four spaces are in canonical form -/
  keybufWf : Memory.wf s.keybuf
  sboxbufWf : Memory.wf s.sboxbuf
  inbufWf : Memory.wf s.inbuf
  outbufWf : Memory.wf s.outbuf
  /-- R42: `OUTBUF` lists exactly the addresses `0 .. OLEN - 1` -/
  outbufExact : s.outbuf.map Prod.fst = List.range s.olen
  /-- R23: `OLEN mod 8 = 0` -/
  olenAligned : s.olen % 8 = 0
  /-- R18: `KLEN`, `SLEN` and `ILEN` are in `[0, LEN_MAX]` -/
  klenBound : Config.withinLenMax s.klen = true
  slenBound : Config.withinLenMax s.slen = true
  ilenBound : Config.withinLenMax s.ilen = true
  /-- R18: `OLEN` is in `[0, 8*ceil(LEN_MAX/8)]` -/
  olenBound : ∀ m, Config.lenMax = some m → s.olen ≤ 8 * ((m + 7) / 8)
  /-- R14: after a failed `LDKEY` there is no Key -/
  errKey : s.err = .invalidKeyLength → s.keyValid = false
  /-- R14: after a failed `LDSBOX` there is no SubstitutionBank -/
  errBank : s.err = .invalidSBoxLength → s.sboxValid = false
  /-- R102: `NotReady` says that a valid bit is 0 -/
  errNotReady : s.err = .notReady → s.ready = false

/-- Byte `j` of chunk `blk` of the padded input of `ENC` (R85, R88): an input byte below `ILEN`, the
pad count from there on. -/
def State.encChunk (s : State) (blk j : Nat) : Byte :=
  if 8 * blk + j < s.ilen then s.byteAt .inbuf (8 * blk + j)
  else BitVec.ofNat 8 (8 - s.ilen % 8)

/-- Byte `j` of chunk `blk` of the zero-filled input of `DEC` (R89, R90): an input byte below
`ILEN`, zero from there on. -/
def State.decChunk (s : State) (blk j : Nat) : Byte :=
  if 8 * blk + j < s.ilen then s.byteAt .inbuf (8 * blk + j) else 0

/-- The block a chunk of 8 bytes decodes to, R86. -/
def chunkBlock (c : Nat → Byte) : Block :=
  ⟨le32 (c 0) (c 1) (c 2) (c 3), le32 (c 4) (c 5) (c 6) (c 7)⟩

/-- `k` steps, ending at the first fault or refusal. -/
def runSteps : Nat → State → Host.Outcome State Fault Refusal
  | 0, s => .next s
  | k + 1, s =>
    match step s with
    | .next t => runSteps k t
    | .fault r => .fault r
    | .refused r => .refused r

end Sys2Proof.Machine

/-- The host's accesses to registers and spaces: every move but the engine's turn and RESET. -/
def Sys2Proof.Event.isHostAccess : Sys2Proof.Event → Bool
  | .engine => false
  | .reset => false
  | .readReg _ => true
  | .writeReg _ _ => true
  | .readBuf _ _ => true
  | .writeBuf _ _ _ => true
end

