-- ==== Sys2Proof/Certificates/Slice0/Obligations.lean ====
section
/-! DEFINITION. The statements for the provers, from the numbered rules of spec/. Every result
statement of a command is an equation `exec i s = next t` in which `t` is `s` with exactly the
fields the rule writes replaced, so it is the command's completion and its frame at once. -/

open Sys2Proof Sys2Proof.Machine Host

/-! ### Encoding -/

/-- R51: the four codes, all eight bits compared. -/
def Obligations.CommandCodesAreThoseOfTheOpcodeMap : Prop :=
  ∀ (code : Byte) (rest : List Byte),
    (decode (code :: rest) = .ok (.ldkey, rest) ↔ code = 0x01)
    ∧ (decode (code :: rest) = .ok (.ldsbox, rest) ↔ code = 0x02)
    ∧ (decode (code :: rest) = .ok (.enc, rest) ↔ code = 0x03)
    ∧ (decode (code :: rest) = .ok (.dec, rest) ↔ code = 0x04)

/-- R50 and R51: decoding and encoding are inverse, on every byte sequence. -/
def Obligations.DecodeIsInverseOfEncode : Prop :=
  ∀ (bs rest : List Byte) (i : Instr), decode bs = .ok (i, rest) ↔ bs = encode i ++ rest

/-- R53: a reserved code decodes to Illegal, and a write of it to `CMD` of the idle engine ends, at
the engine's turn, with `IllegalCommand` and nothing else changed. -/
def Obligations.ReservedCodeOnlyRaisesIllegalCommand : Prop :=
  ∀ code : Byte, code = 0x00 ∨ 0x05 ≤ code.toNat →
    (∀ rest, decode (code :: rest) = .error (.illegalCommand code))
    ∧ ∀ (s : State) (rest : List Event), s.running = none →
        s.schedule = .writeReg 0 code.toNat :: .engine :: rest →
        ∃ u, step s = .next u
          ∧ step u = .next { s with schedule := rest, err := .illegalCommand, running := none }

/-! ### How a command runs -/

/-- R119 with R51 and R53: the engine's turn ends the executing command, with an empty script and
with the turn standing first in it: it is `runCode` of the executing code, whatever the code; which
is `exec i` when the code decodes to `i`, and `IllegalCommand` with nothing else changed when the code
is reserved. That the engine has the turn when the script is empty is log entry 6. -/
def Obligations.StepRunsTheDecodedCommand : Prop :=
  ∀ (s u : State) (code : Byte), s.running = some code →
    (s.schedule = [] ∧ u = s
      ∨ ∃ rest, s.schedule = .engine :: rest ∧ u = { s with schedule := rest }) →
    step s = runCode code u
    ∧ (∀ i : Instr, decode [code] = .ok (i, []) → i.wellFormed = true → step s = exec i u)
    ∧ (code = 0x00 ∨ 0x05 ≤ code.toNat →
        step s = .next { u with err := .illegalCommand, running := none })

/-- The placed opcode-table word of a command is what the next step runs (log entry 10). -/
def Obligations.PlacedCommandRunsNext : Prop :=
  ∀ (s : State) (i : Instr),
    step (s.withFetchWord 8 (encodeCode i).toNat)
      = exec i { s with running := some (encodeCode i) }

/-- R15 and R14: a write of any byte to `CMD` of the idle engine starts the command of that code:
`BUSY` is 1 and nothing else changes. -/
def Obligations.CommandWriteSetsBusy : Prop :=
  ∀ (s : State) (code : Byte) (rest : List Event), s.running = none →
    s.schedule = .writeReg 0 code.toNat :: rest →
    ∃ t, step s = .next t ∧ t = { s with schedule := rest, running := some code }
      ∧ t.status.toNat % 2 = 1

/-- R110 and R119: every command, from every state, ends: a next state with `BUSY = 0`. -/
def Obligations.EveryCommandEndsIdle : Prop :=
  ∀ (i : Instr) (s : State), ∃ t, exec i s = .next t ∧ t.busy = false

/-- R123: a busy engine whose host only polls `STATUS`, any finite number of times, is idle one
step later, with the script used up. -/
def Obligations.PolledCommandTerminates : Prop :=
  ∀ (n : Nat) (s : State), s.busy = true → s.schedule = List.replicate n (.readReg 1) →
    ∃ t, runSteps (n + 1) s = .next t ∧ t.busy = false ∧ t.schedule = []

/-- R105: the completion code before a command has no influence on it. -/
def Obligations.CompletionCodeIsNotSticky : Prop :=
  ∀ (i : Instr) (s : State) (e : ErrCode), exec i { s with err := e } = exec i s

/-! ### The load commands -/

/-- R60, whole: `LDKEY` with `KLEN = 32` loads the eight little-endian words of `KEYBUF`, sets
`KEY_VALID` and `ERR = 0`; with any other `KLEN` it clears `KEY_VALID` and ends with
`InvalidKeyLength`; nothing else changes. -/
def Obligations.LdkeyLoadsEightLittleEndianWords : Prop :=
  ∀ s : State,
    (s.klen = 32 → ∃ t, exec .ldkey s = .next t
      ∧ t = { s with key := t.key, keyValid := true, err := .ok, running := none }
      ∧ ∀ i : Fin 8, (t.key[i]).toNat
          = (s.byteAt .keybuf (4 * i.val)).toNat
            + 2 ^ 8 * (s.byteAt .keybuf (4 * i.val + 1)).toNat
            + 2 ^ 16 * (s.byteAt .keybuf (4 * i.val + 2)).toNat
            + 2 ^ 24 * (s.byteAt .keybuf (4 * i.val + 3)).toNat)
    ∧ (s.klen ≠ 32 → exec .ldkey s
        = .next { s with keyValid := false, err := .invalidKeyLength, running := none })

/-- R61, whole: `LDSBOX` with `SLEN ≥ 64` unpacks the 64 bytes of `SBOXBUF` into 128 entries, low
nibble first, sets `SBOX_VALID` and `ERR = 0`; with a smaller `SLEN` it clears `SBOX_VALID` and ends
with `InvalidSBoxLength`; nothing else changes. -/
def Obligations.LdsboxUnpacksEightTables : Prop :=
  ∀ s : State,
    (64 ≤ s.slen → ∃ t, exec .ldsbox s = .next t
      ∧ t = { s with bank := t.bank, sboxValid := true, err := .ok, running := none }
      ∧ ∀ (i j : Fin 8) (lo hi : Fin 16), lo.val = 2 * j.val → hi.val = 2 * j.val + 1 →
          (t.bank[i][lo]).toNat = (s.byteAt .sboxbuf (8 * i.val + j.val)).toNat % 16
          ∧ (t.bank[i][hi]).toNat = (s.byteAt .sboxbuf (8 * i.val + j.val)).toNat / 16)
    ∧ (s.slen < 64 → exec .ldsbox s
        = .next { s with sboxValid := false, err := .invalidSBoxLength, running := none })

/-- R63 (which the spec marks as derived from R61): loading the packing of a bank gives the bank. -/
def Obligations.PackedBankLoadsBack : Prop :=
  ∀ (s : State) (T : Bank), 64 ≤ s.slen →
    (∀ (i j : Fin 8) (lo hi : Fin 16), lo.val = 2 * j.val → hi.val = 2 * j.val + 1 →
      (s.byteAt .sboxbuf (8 * i.val + j.val)).toNat
        = (T[i][lo]).toNat + 16 * (T[i][hi]).toNat) →
    ∃ t, exec .ldsbox s = .next t ∧ t.bank = T

/-! ### The cipher -/

/-- R8: `LE32` and `bytesLE32` as the two definitions of R8 give them, and (which the spec marks as
derived from them) each the inverse of the other. -/
def Obligations.ByteOrderIsLittleEndian : Prop :=
  (∀ b0 b1 b2 b3 : Byte, (le32 b0 b1 b2 b3).toNat
      = b0.toNat + 2 ^ 8 * b1.toNat + 2 ^ 16 * b2.toNat + 2 ^ 24 * b3.toNat)
  ∧ (∀ v : Word, (bytesLE32 v).map BitVec.toNat
      = [v.toNat % 256, v.toNat / 2 ^ 8 % 256, v.toNat / 2 ^ 16 % 256, v.toNat / 2 ^ 24 % 256])
  ∧ (∀ b0 b1 b2 b3 : Byte, bytesLE32 (le32 b0 b1 b2 b3) = [b0, b1, b2, b3])

/-- R70: `F` adds modulo 2^32, replaces nibble `i` of the sum through table `i`, and moves bit `b`
of that to bit `(b + 11) mod 32`. -/
def Obligations.RoundFunctionAddsSubstitutesRotates : Prop :=
  ∀ (n k : Word) (S : Bank), ∃ subst : Word,
    (∀ (i : Fin 8) (v : Fin 16),
      (n.toNat + k.toNat) % 2 ^ 32 / 16 ^ i.val % 16 = v.val →
      subst.toNat / 16 ^ i.val % 16 = (S[i][v]).toNat)
    ∧ ∀ b, b < 32 → (roundF n k S).getLsbD ((b + 11) % 32) = subst.getLsbD b

/-- R7: `rotl32` by `s` in `[1,31]` moves bit `b` to bit `(b + s) mod 32`. -/
def Obligations.RotationMovesEveryBitRound : Prop :=
  ∀ (a : Word) (s b : Nat), 1 ≤ s → s ≤ 31 → b < 32 →
    (rotl32 a s).getLsbD ((b + s) % 32) = a.getLsbD b

/-- R75, corner case c (which the spec marks as derived): a round is undone from the new pair alone,
whatever the subkey and the bank. -/
def Obligations.FeistelRoundIsInvertible : Prop :=
  ∀ (S : Bank) (k : Word) (w : Work),
    w.n1 = (feistelRound S k w).n2
    ∧ w.n2 = (feistelRound S k w).n1 ^^^ roundF (feistelRound S k w).n2 k S

/-- R76 and R77: both key-index tables follow their formulas. -/
def Obligations.KeyIndexTablesFollowTheFormulas : Prop :=
  kidxEnc.length = 32 ∧ kidxDec.length = 32
  ∧ (∀ i : Fin 32, (kidxEnc[i.val]?).map Fin.val
      = some (if i.val < 24 then i.val % 8 else 7 - (i.val - 24)))
  ∧ (∀ i : Fin 32, (kidxDec[i.val]?).map Fin.val
      = some (if i.val < 8 then i.val else 7 - (i.val - 8) % 8))

/-- R81 (which the spec marks as derived from R76 and R77): decryption uses the subkeys in exactly the
reverse of the encryption order. -/
def Obligations.DecryptionOrderIsEncryptionOrderReversed : Prop :=
  ∀ i : Fin 32, kidxDec[i.val]? = kidxEnc[31 - i.val]?

/-- R78: `ENCBLK` is 32 rounds in the order of R76, `N1` and `N2` loaded with the two halves, and
the pair `(N2, N1)` returned. -/
def Obligations.EncblkIsThirtyTwoRounds : Prop :=
  ∀ (K : Key) (S : Bank) (a b : Word) (n1 n2 : Nat → Word), n1 0 = a → n2 0 = b →
    (∀ (i : Fin 32) (idx : Fin 8),
      idx.val = (if i.val < 24 then i.val % 8 else 7 - (i.val - 24)) →
      n1 (i.val + 1) = n2 i.val ^^^ roundF (n1 i.val) K[idx] S ∧ n2 (i.val + 1) = n1 i.val) →
    encBlk K S ⟨a, b⟩ = ⟨n2 32, n1 32⟩

/-- R79: `DECBLK` is 32 rounds in the order of R77, with the same loading and exit. -/
def Obligations.DecblkIsThirtyTwoRounds : Prop :=
  ∀ (K : Key) (S : Bank) (a b : Word) (n1 n2 : Nat → Word), n1 0 = a → n2 0 = b →
    (∀ (i : Fin 32) (idx : Fin 8),
      idx.val = (if i.val < 8 then i.val else 7 - (i.val - 8) % 8) →
      n1 (i.val + 1) = n2 i.val ^^^ roundF (n1 i.val) K[idx] S ∧ n2 (i.val + 1) = n1 i.val) →
    decBlk K S ⟨a, b⟩ = ⟨n2 32, n1 32⟩

/-- R83: `DECBLK` and `ENCBLK` invert each other, for every Key, every bank, permutation or not, and
every pair of halves. -/
def Obligations.DecblkAndEncblkInvertEachOther : Prop :=
  ∀ (K : Key) (S : Bank) (blk : Block),
    decBlk K S (encBlk K S blk) = blk ∧ encBlk K S (decBlk K S blk) = blk

/-! ### The block processor -/

/-- R85: `PAD` adds nothing to an aligned sequence and else `p = 8 - (L mod 8)` bytes of value `p`;
the result has length `8 * ceil(L / 8)`, and padding it again changes nothing. -/
def Obligations.PadFillsToAMultipleOfEight : Prop :=
  ∀ bs : List Byte,
    (bs.length % 8 = 0 → pad bs = bs)
    ∧ (bs.length % 8 ≠ 0 → pad bs
        = bs ++ List.replicate (8 - bs.length % 8) (BitVec.ofNat 8 (8 - bs.length % 8)))
    ∧ (pad bs).length = 8 * ((bs.length + 7) / 8)
    ∧ pad (pad bs) = pad bs

/-- R88, whole: `ENC` with a Key and a bank stores `ENCBLK` of each chunk of the padded input at
`OUTBUF[8*blk .. 8*blk + 8)`, sets `OLEN = 8 * ceil(ILEN / 8)` and `ERR = 0`; without one of them it
ends with `NotReady`; the working registers and the sequencer are left unspecified and nothing else
changes. The wire order of the halves (R86, R87) is the spec's decision D9. -/
def Obligations.EncStoresEncryptedChunks : Prop :=
  ∀ s : State,
    (s.keyValid = true → s.sboxValid = true → ∃ t, exec .enc s = .next t
      ∧ t = { s with
          outbuf := t.outbuf, olen := 8 * ((s.ilen + 7) / 8), err := .ok, running := none,
          work := t.work, seq := t.seq, draws := t.draws }
      ∧ ∀ blk, blk < (s.ilen + 7) / 8 → ∀ j, j < 8 →
          Memory.read t.outbuf (8 * blk + j)
            = (bytesLE32 (encBlk s.key s.bank (chunkBlock (s.encChunk blk))).first
                ++ bytesLE32 (encBlk s.key s.bank (chunkBlock (s.encChunk blk))).second)[j]?)
    ∧ (s.keyValid = false ∨ s.sboxValid = false →
        exec .enc s = .next { s with err := .notReady, running := none })

/-- R89 and R90, whole: `DEC` as `ENC`, with `DECBLK`, the last chunk filled with zero bytes instead
of padded, and nothing stripped. The wire order of the halves (R86, R87) is the spec's decision
D9. -/
def Obligations.DecStoresDecryptedChunks : Prop :=
  ∀ s : State,
    (s.keyValid = true → s.sboxValid = true → ∃ t, exec .dec s = .next t
      ∧ t = { s with
          outbuf := t.outbuf, olen := 8 * ((s.ilen + 7) / 8), err := .ok, running := none,
          work := t.work, seq := t.seq, draws := t.draws }
      ∧ ∀ blk, blk < (s.ilen + 7) / 8 → ∀ j, j < 8 →
          Memory.read t.outbuf (8 * blk + j)
            = (bytesLE32 (decBlk s.key s.bank (chunkBlock (s.decChunk blk))).first
                ++ bytesLE32 (decBlk s.key s.bank (chunkBlock (s.decChunk blk))).second)[j]?)
    ∧ (s.keyValid = false ∨ s.sboxValid = false →
        exec .dec s = .next { s with err := .notReady, running := none })

/-- R91: with a Key and a bank, empty input is success with empty output. -/
def Obligations.EmptyInputIsSuccessWithEmptyOutput : Prop :=
  ∀ (s : State) (i : Instr), i = .enc ∨ i = .dec → s.keyValid = true → s.sboxValid = true →
    s.ilen = 0 →
    ∃ t, exec i s = .next t ∧ t.olen = 0 ∧ t.err = .ok ∧ t.result = []
      ∧ t.keyValid = true ∧ t.sboxValid = true

/-- R93: an output group depends only on its own chunk, on `K` and on `S`: equal chunks at any two
positions of any two inputs, in any two states with the same `K` and `S`, give equal groups. -/
def Obligations.OutputGroupDependsOnlyOnItsChunk : Prop :=
  ∀ (s s' t t' : State) (blk blk' : Nat), s'.key = s.key → s'.bank = s.bank →
    s.ready = true → s'.ready = true →
    blk < (s.ilen + 7) / 8 → blk' < (s'.ilen + 7) / 8 →
    (exec .enc s = .next t → exec .enc s' = .next t' →
      (∀ j, j < 8 → s.encChunk blk j = s'.encChunk blk' j) →
      ∀ j, j < 8 → Memory.read t.outbuf (8 * blk + j) = Memory.read t'.outbuf (8 * blk' + j))
    ∧ (exec .dec s = .next t → exec .dec s' = .next t' →
      (∀ j, j < 8 → s.decChunk blk j = s'.decChunk blk' j) →
      ∀ j, j < 8 → Memory.read t.outbuf (8 * blk + j) = Memory.read t'.outbuf (8 * blk' + j))

/-- R93, the identity on concatenations at a chunk boundary: what `ENC`, and what `DEC`, gives for
`B1 ++ B2` is what it gives for `B1` followed by what it gives for `B2`. -/
def Obligations.CipherOfConcatenationIsConcatenation : Prop :=
  ∀ (i : Instr) (s s1 s2 : State), i = .enc ∨ i = .dec →
    s.ready = true → s1.ready = true → s2.ready = true →
    s1.key = s.key → s2.key = s.key → s1.bank = s.bank → s2.bank = s.bank →
    s.input = s1.input ++ s2.input → s1.ilen % 8 = 0 →
    ∃ t t1 t2, exec i s = .next t ∧ exec i s1 = .next t1 ∧ exec i s2 = .next t2
      ∧ t.result = t1.result ++ t2.result

/-- R94: with the same `K`, `S`, `ILEN` and `INBUF[0 .. ILEN)` a command gives the same `OLEN` and
the same `OUTBUF[0 .. OLEN)`, whatever else differs. -/
def Obligations.SameInputGivesSameOutput : Prop :=
  ∀ (i : Instr) (s s' : State), i = .enc ∨ i = .dec → s.ready = true → s'.ready = true →
    s'.key = s.key → s'.bank = s.bank → s'.ilen = s.ilen →
    (∀ a, a < s.ilen → s'.byteAt .inbuf a = s.byteAt .inbuf a) →
    ∃ t t', exec i s = .next t ∧ exec i s' = .next t' ∧ t'.olen = t.olen
      ∧ ∀ a, a < t.olen → Memory.read t'.outbuf a = Memory.read t.outbuf a

/-- R90, consequence (which the spec marks as derived): `DEC` of a buffer and of that buffer with
zero bytes up to a multiple of 8 give the same output. -/
def Obligations.DecOfZeroExtendedInputIsTheSame : Prop :=
  ∀ (s s' : State), s.ready = true → s'.ready = true → s'.key = s.key → s'.bank = s.bank →
    s'.input = s.input ++ List.replicate (8 * ((s.ilen + 7) / 8) - s.ilen) 0 →
    ∃ t t', exec .dec s = .next t ∧ exec .dec s' = .next t' ∧ t'.result = t.result

/-- R95: decrypting what `ENC` gave, in any later state with the same Key and bank, gives the padded
input, which is the input itself when its length is a multiple of 8; and encrypting what `DEC` gave
for an aligned input gives that input. The padded form is what the spec marks as derived. -/
def Obligations.DecryptionOfEncryptionIsThePaddedInput : Prop :=
  ∀ s u : State, s.ready = true → u.ready = true → u.key = s.key → u.bank = s.bank →
    (∀ t, exec .enc s = .next t → u.input = t.result →
      ∃ v, exec .dec u = .next v ∧ v.result = pad s.input
        ∧ (s.ilen % 8 = 0 → v.result = s.input))
    ∧ (∀ t, exec .dec s = .next t → u.input = t.result → s.ilen % 8 = 0 →
      ∃ v, exec .enc u = .next v ∧ v.result = s.input)

/-! ### Completion codes and valid bits -/

/-- R14: `STATUS` as a byte is `BUSY + 2*KEY_VALID + 4*SBOX_VALID + 16*ERR`, bit 3 is 0, and `ERR`
is at most 4. -/
def Obligations.StatusByteLayout : Prop :=
  ∀ s : State,
    s.status.toNat
      = s.busy.toNat + 2 * s.keyValid.toNat + 4 * s.sboxValid.toNat + 16 * s.err.code.toNat
    ∧ s.status.getLsbD 3 = false ∧ s.err.code.toNat ≤ 4

/-- R101 and R102: the completion code of every command and of every reserved code, by cause. -/
def Obligations.CompletionCodesByCause : Prop :=
  ∀ (s t : State) (code : Byte),
    (exec .ldkey s = .next t → t.err.code.toNat = if s.klen ≠ 32 then 1 else 0)
    ∧ (exec .ldsbox s = .next t → t.err.code.toNat = if s.slen < 64 then 2 else 0)
    ∧ (exec .enc s = .next t →
        t.err.code.toNat = if s.keyValid = false ∨ s.sboxValid = false then 3 else 0)
    ∧ (exec .dec s = .next t →
        t.err.code.toNat = if s.keyValid = false ∨ s.sboxValid = false then 3 else 0)
    ∧ (code = 0x00 ∨ 0x05 ≤ code.toNat → runCode code s = .next t → t.err.code.toNat = 4)

/-- R103: an erring command writes `ERR`, returns `BUSY` to 0, clears `KEY_VALID` for
`InvalidKeyLength` and `SBOX_VALID` for `InvalidSBoxLength`, and writes nothing else. -/
def Obligations.ErringCommandWritesOnlyWhatRaiseLists : Prop :=
  ∀ (code : Byte) (s t : State), runCode code s = .next t → t.err ≠ .ok →
    t = { s with
      err := t.err, running := none
      keyValid := if t.err = .invalidKeyLength then false else s.keyValid
      sboxValid := if t.err = .invalidSBoxLength then false else s.sboxValid }

/-- R105, R14: a step makes `KEY_VALID` 1 only by finishing an `LDKEY` with `KLEN = 32`, and
`SBOX_VALID` 1 only by finishing an `LDSBOX` with `SLEN ≥ 64`; so after a failed load every `ENC`
and `DEC` raises `NotReady` until a later load succeeds. -/
def Obligations.OnlySuccessfulLoadsSetValidBits : Prop :=
  ∀ s t : State, step s = .next t →
    (s.keyValid = false → t.keyValid = true →
      ∃ code, s.running = some code ∧ decodeCode code = some .ldkey ∧ s.klen = 32)
    ∧ (s.sboxValid = false → t.sboxValid = true →
      ∃ code, s.running = some code ∧ decodeCode code = some .ldsbox ∧ 64 ≤ s.slen)

/-- R11, R13, R122: a step changes `K` only by finishing a successful `LDKEY` or by RESET, and `S`
only by finishing a successful `LDSBOX` or by RESET. (That RESET writes `K` and `S` at all is the
model's choice, log entry 1; the spec leaves them unspecified.) -/
def Obligations.KeyAndBankChangeOnlyByLoadsOrReset : Prop :=
  ∀ s t : State, step s = .next t → s.schedule.head? ≠ some .reset →
    (t.key ≠ s.key → ∃ code, s.running = some code ∧ decodeCode code = some .ldkey
      ∧ s.klen = 32 ∧ t.keyValid = true)
    ∧ (t.bank ≠ s.bank → ∃ code, s.running = some code ∧ decodeCode code = some .ldsbox
      ∧ 64 ≤ s.slen ∧ t.sboxValid = true)

/-- R34, R17: no command writes an input space or one of `KLEN`, `SLEN`, `ILEN`. -/
def Obligations.CommandsNeverWriteInputSpacesOrLengths : Prop :=
  ∀ (i : Instr) (s t : State), exec i s = .next t →
    t.keybuf = s.keybuf ∧ t.sboxbuf = s.sboxbuf ∧ t.inbuf = s.inbuf
    ∧ t.klen = s.klen ∧ t.slen = s.slen ∧ t.ilen = s.ilen

/-- R42: `OUTBUF` and `OLEN` are unchanged by a command that ends with `ERR ≠ 0`, by a reserved
code, and by both loads. -/
def Obligations.OutputKeptByErrorsAndLoads : Prop :=
  ∀ (code : Byte) (s t : State), runCode code s = .next t →
    t.err ≠ .ok ∨ decodeCode code = some .ldkey ∨ decodeCode code = some .ldsbox →
    t.outbuf = s.outbuf ∧ t.olen = s.olen

/-! ### What cannot influence what -/

/-- R33: bytes at or above a space's declared length, and bytes of `SBOXBUF` from 64 on, never
influence any result of any command. -/
def Obligations.BytesAboveTheLengthHaveNoInfluence : Prop :=
  ∀ (i : Instr) (s t : State) (kb sb ib : Memory), exec i s = .next t →
    (∀ a, a < s.klen →
      State.byteAt { s with keybuf := kb } .keybuf a = s.byteAt .keybuf a) →
    (∀ a, a < s.slen → a < 64 →
      State.byteAt { s with sboxbuf := sb } .sboxbuf a = s.byteAt .sboxbuf a) →
    (∀ a, a < s.ilen →
      State.byteAt { s with inbuf := ib } .inbuf a = s.byteAt .inbuf a) →
    exec i { s with keybuf := kb, sboxbuf := sb, inbuf := ib }
      = .next { t with keybuf := kb, sboxbuf := sb, inbuf := ib }

/-- R22 (which the spec marks as derived): what `K` holds while `KEY_VALID = 0`, and what `S` holds
while `SBOX_VALID = 0`, influences nothing but itself, and nothing at all once the bit is 1. -/
def Obligations.UnloadedRegistersAreUnobservable : Prop :=
  ∀ (code : Byte) (s t : State), runCode code s = .next t →
    (s.keyValid = false → ∀ K : Key, ∃ K' : Key,
      runCode code { s with key := K } = .next { t with key := K' }
      ∧ (t.keyValid = true → K' = t.key))
    ∧ (s.sboxValid = false → ∀ S : Bank, ∃ S' : Bank,
      runCode code { s with bank := S } = .next { t with bank := S' }
      ∧ (t.sboxValid = true → S' = t.bank))

/-- R108: `K`, `S`, `N1` and `N2` have no read path: whatever access the host makes, what it reads
does not depend on them, nor on the sequencer. -/
def Obligations.HostReadsNoKeyMaterial : Prop :=
  ∀ (s t : State) (e : Event) (rest : List Event) (K : Key) (S : Bank) (w : Work)
    (q : Sequencer), e.isHostAccess = true → s.schedule = e :: rest → step s = .next t →
    ∃ t', step { s with key := K, bank := S, work := w, seq := q } = .next t'
      ∧ t'.hostRead = t.hostRead ∧ t'.status = t.status ∧ t'.outbuf = t.outbuf

/-! ### The host interface -/

/-- R121: while `BUSY = 1` the host may read `STATUS`, and every other access of the host is
refused. That the read returns the whole `STATUS` byte, with `KEY_VALID`, `SBOX_VALID` and `ERR` as
the last command left them, is the model's inference, log entry 7 (DEDUCED, unsafe): R119 says only
that the host learns no more than `BUSY = 1`. -/
def Obligations.BusyEngineAllowsOnlyStatusReads : Prop :=
  ∀ (s : State) (e : Event) (rest : List Event), s.busy = true → s.schedule = e :: rest →
    e.isHostAccess = true →
    step s = if e = .readReg 1
      then .next { s with schedule := rest, hostRead := some s.status.toNat }
      else .refused .hostActionWhileBusy

/-- R124, R18, R20: with the engine idle, a move other than a read of `OUTBUF` at or above `OLEN`
has a next state exactly when it is well formed. Two parts of it are the model's choice: that an
access to an input space at or above `LEN_MAX` has no next state (log entry 8, DESIGN CHOICE: R30
says "at least `LEN_MAX` bytes"), and that a `CMD` write of a value that is no byte and a host write
to `OUTBUF` have none (log entry 9, DESIGN CHOICE). -/
def Obligations.IdleMovesRunExactlyWhenWellFormed : Prop :=
  ∀ (s : State) (e : Event) (rest : List Event), s.running = none → s.schedule = e :: rest →
    (∀ a, e = .readBuf .outbuf a → a < s.olen) →
    ((∃ t, step s = .next t) ↔ e.wellFormed = true)

/-- R18: the idle engine's registers 1 to 5 read as `STATUS`, `KLEN`, `SLEN`, `ILEN`, `OLEN`; `CMD`
and the numbers from 6 on have no read. -/
def Obligations.RegisterReadsReturnTheRegister : Prop :=
  ∀ (s : State) (n : Nat) (rest : List Event), s.running = none → s.schedule = .readReg n :: rest →
    step s =
      (if n = 1 then .next { s with schedule := rest, hostRead := some s.status.toNat }
      else if n = 2 then .next { s with schedule := rest, hostRead := some s.klen }
      else if n = 3 then .next { s with schedule := rest, hostRead := some s.slen }
      else if n = 4 then .next { s with schedule := rest, hostRead := some s.ilen }
      else if n = 5 then .next { s with schedule := rest, hostRead := some s.olen }
      else .refused .noSuchOperation)

/-- R17, R18: the idle engine's register writes: a length register takes a value up to `LEN_MAX` and
a larger one is refused; a write to `STATUS` or `OLEN` is ignored; the numbers from 6 on have no
write. -/
def Obligations.RegisterWritesChangeOneLength : Prop :=
  ∀ (s : State) (n v : Nat) (rest : List Event), s.running = none → n ≠ 0 →
    s.schedule = .writeReg n v :: rest →
    step s =
      (if n = 1 ∨ n = 5 then .next { s with schedule := rest }
      else if 6 ≤ n then .refused .noSuchOperation
      else if Config.withinLenMax v = false then .refused .lengthAboveMax
      else if n = 2 then .next { s with schedule := rest, klen := v }
      else if n = 3 then .next { s with schedule := rest, slen := v }
      else .next { s with schedule := rest, ilen := v })

/-- R20, R30: a host write of one byte of an input space changes that byte of that space and no
other byte of any space; the length registers and everything else stay. -/
def Obligations.BufferWriteChangesOneByte : Prop :=
  ∀ (s : State) (sp : Space) (a : Nat) (b : Byte) (rest : List Event), s.running = none →
    sp ≠ .outbuf → Config.withinLenMax (a + 1) = true → s.schedule = .writeBuf sp a b :: rest →
    ∃ t, step s = .next t
      ∧ (∀ sp' a', t.byteAt sp' a' = if sp' = sp ∧ a' = a then b else s.byteAt sp' a')
      ∧ t = { s with
          schedule := rest, keybuf := t.keybuf, sboxbuf := t.sboxbuf, inbuf := t.inbuf }

/-- R10, R20: a host read of one byte of `KEYBUF`, `SBOXBUF` or `INBUF` below `LEN_MAX`, by the idle
engine, returns the byte of that space at that address and changes nothing else. The byte is the one
last written there (`BufferWriteChangesOneByte`); one never written is a free value (log entry 4). -/
def Obligations.InputSpaceReadsReturnTheByte : Prop :=
  ∀ (s : State) (sp : Space) (a : Nat) (rest : List Event), s.running = none →
    sp ≠ .outbuf → Config.withinLenMax (a + 1) = true → s.schedule = .readBuf sp a :: rest →
    step s = .next { s with schedule := rest, hostRead := some (s.byteAt sp a).toNat }

/-- R42, R20: a host read of `OUTBUF` by the idle engine gives the stored byte below `OLEN` and is
refused from `OLEN` on (U3). -/
def Obligations.OutbufReadsStopAtOlen : Prop :=
  ∀ (s : State) (a : Nat) (rest : List Event), s.running = none →
    s.schedule = .readBuf .outbuf a :: rest →
    step s = if a < s.olen
      then .next { s with schedule := rest, hostRead := some (s.byteAt .outbuf a).toNat }
      else .refused .outbufBeyondOlen

/-- R115 with R24: RESET, in any state, idle or busy (R117), gives `STATUS = 0x00` and all four
lengths 0, and the engine then waits for the host. That the rest of the script is kept is log entry
12, and that the step on an empty script is the idle engine's turn is log entry 6 (both DESIGN
CHOICE). -/
def Obligations.ResetGivesIdleEngineWithoutKey : Prop :=
  ∀ (s : State) (rest : List Event), s.schedule = .reset :: rest →
    ∃ t, step s = .next t ∧ t.status = 0x00 ∧ t.running = none
      ∧ t.klen = 0 ∧ t.slen = 0 ∧ t.ilen = 0 ∧ t.olen = 0
      ∧ t.schedule = rest ∧ (rest = [] → step t = .next t)

/-- R24: the reset state has `STATUS = 0x00` and all four lengths 0, and each command issued straight
after reset fails visibly: `LDKEY` with `InvalidKeyLength`, `LDSBOX` with `InvalidSBoxLength`, `ENC`
and `DEC` with `NotReady`. -/
def Obligations.ResetStateIsAsSpecified : Prop :=
  State.reset.status = 0x00 ∧ State.reset.klen = 0 ∧ State.reset.slen = 0
  ∧ State.reset.ilen = 0 ∧ State.reset.olen = 0
  ∧ (∃ t, exec .ldkey State.reset = .next t ∧ t.err = .invalidKeyLength)
  ∧ (∃ t, exec .ldsbox State.reset = .next t ∧ t.err = .invalidSBoxLength)
  ∧ (∃ t, exec .enc State.reset = .next t ∧ t.err = .notReady)
  ∧ (∃ t, exec .dec State.reset = .next t ∧ t.err = .notReady)

/-- R111, R115: an idle engine's turn leaves the state as it is, with an empty script (log entry 6)
and with any host moves standing behind the turn; only the turn is taken from the script. -/
def Obligations.IdleEngineHoldsItsState : Prop :=
  ∀ s : State, s.running = none →
    (s.schedule = [] → step s = .next s)
    ∧ ∀ rest, s.schedule = .engine :: rest → step s = .next { s with schedule := rest }

/-! ### The invariant -/

/-- Every step keeps the invariant: the spaces canonical, `OUTBUF` listing exactly `[0, OLEN)`,
`OLEN` a multiple of 8, the lengths within `LEN_MAX`, and the completion codes in step with the
valid bits (R14, R18, R23, R42, R102). -/
def Obligations.EveryStepKeepsInv : Prop :=
  ∀ s t : State, State.Inv s → step s = .next t → State.Inv t

/-- The reset state meets the invariant. -/
def Obligations.ResetStateMeetsInv : Prop := State.Inv State.reset
end

