-- ==== Sys2Proof/Laws/Bits.lean ====
section
/-! SUPPORT. What the bit-level operations of R6, R7, R61 and R70 give: nibbles as numbers, the
rotation bit by bit, and the substitution nibble by nibble. -/

namespace Sys2Proof.Machine

theorem nibbleAt_toNat (v : Word) (i : Nat) : (nibbleAt v i).toNat = v.toNat / 16 ^ i % 16 := by
  simp only [nibbleAt, BitVec.extractLsb'_toNat, Nat.shiftRight_eq_div_pow, Nat.pow_mul]

theorem lowNibble_toNat (b : Byte) : (lowNibble b).toNat = b.toNat % 16 := by
  simp [lowNibble, BitVec.extractLsb'_toNat]

theorem highNibble_toNat (b : Byte) : (highNibble b).toNat = b.toNat / 16 := by
  have := b.isLt
  simp [highNibble, BitVec.extractLsb'_toNat, Nat.shiftRight_eq_div_pow]
  omega

/-- Below bit 21 the rotation by 11 moves a bit up; from bit 21 on it wraps round. -/
theorem rotl32_bit {x : Word} {b : Nat} (hb : b < 32) :
    (rotl32 x 11).getLsbD ((b + 11) % 32) = x.getLsbD b := by
  unfold rotl32
  rcases Nat.lt_or_ge b 21 with h | h
  · rw [Nat.mod_eq_of_lt (by omega)]
    simp [show b + 11 < 32 by omega, show 21 + (b + 11) = b + 32 by omega,
      BitVec.getLsbD_eq_getElem hb]
  · rw [show (b + 11) % 32 = b - 21 by omega]
    simp [show b - 21 < 11 by omega, show 21 + (b - 21) = b by omega]

/-- Nibble `i` of the substituted value is table `i` at nibble `i`: the eight placements do not
overlap (R70). -/
theorem substitute_nibble (S : Bank) (temp : Word) (i : Fin 8) :
    nibbleAt (substitute S temp) i.val = Bank.entry S i (nibbleAt temp i.val) := by
  unfold substitute nibblePositions
  simp only [List.foldl_cons, List.foldl_nil]
  fin_cases i <;>
  · simp only [nibbleAt]
    ext k hk
    simp
    have : k = 0 ∨ k = 1 ∨ k = 2 ∨ k = 3 := by omega
    rcases this with rfl | rfl | rfl | rfl <;> simp

end Sys2Proof.Machine
end

