-- ==== Sys2Proof/Laws/Memory.lean ====
section
/-! SUPPORT. The laws of one buffer space: a read after a write, the canonical form kept by every
operation, and the space made from a byte sequence. -/

namespace Sys2Proof.Machine

@[simp] theorem Memory.read_nil (a : Nat) : Memory.read [] a = none := rfl

theorem Memory.read_write_same (m : Memory) (a : Nat) (b : Byte) :
    Memory.read (Memory.write m a b) a = some b := by
  induction m with
  | nil => simp [Memory.write, Memory.read]
  | cons c rest ih =>
    obtain ⟨k, v⟩ := c
    by_cases hlt : a < k
    · simp [Memory.write, Memory.read, hlt]
    · by_cases heq : a = k
      · simp [Memory.write, Memory.read, heq]
      · simp [Memory.write, Memory.read, hlt, heq, ih]

theorem Memory.read_write_other (m : Memory) (a a' : Nat) (b : Byte) (h : a' ≠ a) :
    Memory.read (Memory.write m a b) a' = Memory.read m a' := by
  induction m with
  | nil => simp [Memory.write, Memory.read, h]
  | cons c rest ih =>
    obtain ⟨k, v⟩ := c
    by_cases hlt : a < k
    · simp [Memory.write, Memory.read, hlt, h]
    · by_cases heq : a = k
      · subst heq; simp [Memory.write, Memory.read, h]
      · simp [Memory.write, Memory.read, hlt, heq, ih]

/-- Every address a write lists was listed before or is the address written. -/
theorem Memory.mem_write {m : Memory} {a : Nat} {b : Byte} {c : Host.Cell}
    (h : c ∈ Memory.write m a b) : c = (a, b) ∨ c ∈ m := by
  induction m with
  | nil => simpa [Memory.write] using h
  | cons d rest ih =>
    obtain ⟨k, v⟩ := d
    unfold Memory.write at h
    split at h
    · simpa using h
    · split at h
      · rcases List.mem_cons.mp h with h | h
        · exact .inl h
        · exact .inr (List.mem_cons_of_mem _ h)
      · rcases List.mem_cons.mp h with h | h
        · exact .inr (h ▸ List.mem_cons_self)
        · exact (ih h).imp_right (List.mem_cons_of_mem _)

theorem Memory.write_wf {m : Memory} (hm : Memory.wf m) (a : Nat) (b : Byte) :
    Memory.wf (Memory.write m a b) := by
  induction m with
  | nil => simp [Memory.write, Memory.wf]
  | cons c rest ih =>
    obtain ⟨k, v⟩ := c
    obtain ⟨hk, hrest⟩ := List.pairwise_cons.mp hm
    unfold Memory.write
    split
    · next hlt =>
      refine List.pairwise_cons.mpr ⟨fun d hd => ?_, hm⟩
      rcases List.mem_cons.mp hd with rfl | hd
      · exact hlt
      · exact lt_trans hlt (hk d hd)
    · next hge =>
      split
      · next heq => exact List.pairwise_cons.mpr ⟨fun d hd => heq ▸ hk d hd, hrest⟩
      · next hne =>
        refine List.pairwise_cons.mpr ⟨fun d hd => ?_, ih hrest⟩
        rcases Memory.mem_write hd with rfl | hd
        · show k < a; omega
        · exact hk d hd

/-- Below its least address a space lists nothing. -/
theorem Memory.read_eq_none_of_lt {m : Memory} {a : Nat} (h : ∀ c ∈ m, a < c.1) :
    Memory.read m a = none := by
  induction m with
  | nil => rfl
  | cons c rest ih =>
    obtain ⟨k, v⟩ := c
    have hk : a < k := h (k, v) List.mem_cons_self
    simp [Memory.read, Nat.ne_of_lt hk, ih fun d hd => h d (List.mem_cons_of_mem _ hd)]

/-- Canonical spaces that read alike are equal data. -/
theorem Memory.ext_of_wf {m m' : Memory} (hm : Memory.wf m) (hm' : Memory.wf m')
    (h : ∀ a, Memory.read m a = Memory.read m' a) : m = m' := by
  induction m generalizing m' with
  | nil =>
    cases m' with
    | nil => rfl
    | cons c rest => have := h c.1; simp [Memory.read] at this
  | cons c rest ih =>
    obtain ⟨k, v⟩ := c
    cases m' with
    | nil => have := h k; simp [Memory.read] at this
    | cons d rest' =>
      obtain ⟨k', v'⟩ := d
      obtain ⟨hk, hrest⟩ := List.pairwise_cons.mp hm
      obtain ⟨hk', hrest'⟩ := List.pairwise_cons.mp hm'
      have hkk : k = k' := by
        rcases lt_trichotomy k k' with hlt | heq | hlt
        · have h1 := h k
          have h2 : Memory.read rest' k = none :=
            Memory.read_eq_none_of_lt fun c hc => lt_trans hlt (hk' c hc)
          simp [Memory.read, Nat.ne_of_lt hlt, h2] at h1
        · exact heq
        · have h1 := h k'
          have h2 : Memory.read rest k' = none :=
            Memory.read_eq_none_of_lt fun c hc => lt_trans hlt (hk c hc)
          simp [Memory.read, Nat.ne_of_lt hlt, h2] at h1
      subst hkk
      have hvv : v = v' := by have := h k; simpa [Memory.read] using this
      subst hvv
      refine congrArg _ (ih hrest hrest' fun a => ?_)
      by_cases hak : a = k
      · subst hak
        rw [Memory.read_eq_none_of_lt hk, Memory.read_eq_none_of_lt hk']
      · simpa [Memory.read, hak] using h a

theorem Memory.ofBytesFrom_addresses (a : Nat) (bs : List Byte) :
    (Memory.ofBytesFrom a bs).map Prod.fst = List.range' a bs.length := by
  induction bs generalizing a with
  | nil => rfl
  | cons b bs ih => simp [Memory.ofBytesFrom, ih, List.range'_succ]

theorem Memory.ofBytesFrom_lower {a : Nat} {bs : List Byte} {c : Host.Cell}
    (h : c ∈ Memory.ofBytesFrom a bs) : a ≤ c.1 := by
  induction bs generalizing a with
  | nil => simp [Memory.ofBytesFrom] at h
  | cons b bs ih =>
    rcases List.mem_cons.mp h with rfl | h
    · exact le_refl _
    · exact Nat.le_of_succ_le (ih h)

theorem Memory.ofBytesFrom_wf (a : Nat) (bs : List Byte) :
    Memory.wf (Memory.ofBytesFrom a bs) := by
  induction bs generalizing a with
  | nil => exact List.Pairwise.nil
  | cons b bs ih =>
    exact List.pairwise_cons.mpr ⟨fun c hc => Memory.ofBytesFrom_lower hc, ih (a + 1)⟩

/-- A space made from bytes lists exactly them. -/
theorem Memory.read_ofBytesFrom (a k : Nat) (bs : List Byte) :
    Memory.read (Memory.ofBytesFrom a bs) (a + k) = bs[k]? := by
  induction bs generalizing a k with
  | nil => rfl
  | cons b bs ih =>
    cases k with
    | zero => simp [Memory.ofBytesFrom, Memory.read]
    | succ k =>
      have := ih (a + 1) k
      rw [Nat.add_right_comm, Nat.add_assoc] at this
      simpa [Memory.ofBytesFrom, Memory.read] using this

/-- `MemWrite` of one more byte at the end (R9): the space made from a sequence grows address by
address, so building it whole is the block-by-block storing of R88 and R89. -/
theorem Memory.write_end_ofBytesFrom (a : Nat) (bs : List Byte) (b : Byte) :
    Memory.write (Memory.ofBytesFrom a bs) (a + bs.length) b
      = Memory.ofBytesFrom a (bs ++ [b]) := by
  induction bs generalizing a with
  | nil => rfl
  | cons c bs ih =>
    have := ih (a + 1)
    rw [Nat.add_right_comm, Nat.add_assoc] at this
    simp [Memory.ofBytesFrom, Memory.write, this]

end Sys2Proof.Machine
end

