-- ==== Sys2Proof/Laws/Blocks.lean ====
section
/-! SUPPORT. The laws of block decode and encode: lengths, concatenation, one chunk at a time, and
the inverse of encode. -/

namespace Sys2Proof.Machine

theorem fillCount_add (L : Nat) : L + fillCount L = 8 * ((L + 7) / 8) := by
  unfold fillCount Config.blockBytes
  split <;> omega

theorem pad_length (bs : List Byte) : (pad bs).length = 8 * ((bs.length + 7) / 8) := by
  simp [pad, fillCount_add]

theorem zeroFill_length (bs : List Byte) : (zeroFill bs).length = 8 * ((bs.length + 7) / 8) := by
  simp [zeroFill, fillCount_add]

theorem memRead_length (s : State) (sp : Space) (a n : Nat) : (s.memRead sp a n).length = n := by
  simp [State.memRead]

theorem memRead_getElem? (s : State) (sp : Space) (a n k : Nat) :
    (s.memRead sp a n)[k]? = if k < n then some (s.byteAt sp (a + k)) else none := by
  unfold State.memRead
  split
  · next h => simp [h]
  · next h => simp [Nat.not_lt.mp h]

/-- Every byte sequence of at least 8 bytes starts with a chunk. -/
theorem exists_chunk {bs : List Byte} (h : 8 ≤ bs.length) :
    ∃ c0 c1 c2 c3 c4 c5 c6 c7 rest,
      bs = c0 :: c1 :: c2 :: c3 :: c4 :: c5 :: c6 :: c7 :: rest := by
  match bs, h with
  | c0 :: c1 :: c2 :: c3 :: c4 :: c5 :: c6 :: c7 :: rest, _ =>
    exact ⟨c0, c1, c2, c3, c4, c5, c6, c7, rest, rfl⟩

theorem blocksOf_length {n : Nat} {bs : List Byte} (h : bs.length = 8 * n) :
    (blocksOf bs).length = n := by
  induction n generalizing bs with
  | zero => rw [List.eq_nil_of_length_eq_zero h]; rfl
  | succ n ih =>
    obtain ⟨c0, c1, c2, c3, c4, c5, c6, c7, rest, rfl⟩ := exists_chunk (bs := bs) (by omega)
    have hr : rest.length = 8 * n := by simp only [List.length_cons] at h; omega
    simp [blocksOf, ih hr]

theorem blocksOf_append {n : Nat} {bs : List Byte} (h : bs.length = 8 * n) (cs : List Byte) :
    blocksOf (bs ++ cs) = blocksOf bs ++ blocksOf cs := by
  induction n generalizing bs with
  | zero => rw [List.eq_nil_of_length_eq_zero h]; rfl
  | succ n ih =>
    obtain ⟨c0, c1, c2, c3, c4, c5, c6, c7, rest, rfl⟩ := exists_chunk (bs := bs) (by omega)
    have hr : rest.length = 8 * n := by simp only [List.length_cons] at h; omega
    simp [blocksOf, ih hr]

/-- Block number `blk` of an aligned sequence is the decode of bytes `8*blk .. 8*blk + 7` (R86). -/
theorem blocksOf_getElem? {n : Nat} {bs : List Byte} (h : bs.length = 8 * n) {blk : Nat}
    (hb : blk < n) {c : Nat → Byte} (hc : ∀ j, j < 8 → bs[8 * blk + j]? = some (c j)) :
    (blocksOf bs)[blk]? = some (chunkBlock c) := by
  induction n generalizing bs blk with
  | zero => omega
  | succ n ih =>
    obtain ⟨c0, c1, c2, c3, c4, c5, c6, c7, rest, rfl⟩ := exists_chunk (bs := bs) (by omega)
    have hr : rest.length = 8 * n := by simp only [List.length_cons] at h; omega
    cases blk with
    | zero =>
      have h0 := hc 0; have h1 := hc 1; have h2 := hc 2; have h3 := hc 3
      have h4 := hc 4; have h5 := hc 5; have h6 := hc 6; have h7 := hc 7
      simp at h0 h1 h2 h3 h4 h5 h6 h7
      simp [blocksOf, chunkBlock, h0, h1, h2, h3, h4, h5, h6, h7]
    | succ blk =>
      have : (blocksOf rest)[blk]? = some (chunkBlock c) := by
        refine ih hr (by omega) fun j hj => ?_
        have := hc j hj
        rwa [show 8 * (blk + 1) + j = 8 * blk + j + 8 by omega] at this
      simpa [blocksOf] using this

theorem Block.bytes_length (r : Block) : r.bytes.length = 8 := by
  simp [Block.bytes, bytesLE32]

theorem flatMap_bytes_length (rs : List Block) : (rs.flatMap Block.bytes).length = 8 * rs.length := by
  induction rs with
  | nil => rfl
  | cons r rs ih => simp [ih, Block.bytes_length]; omega

/-- Byte `j` of output group `blk` (R87). -/
theorem flatMap_bytes_getElem? {rs : List Block} {blk : Nat} {r : Block} (hr : rs[blk]? = some r)
    {j : Nat} (hj : j < 8) : (rs.flatMap Block.bytes)[8 * blk + j]? = r.bytes[j]? := by
  induction rs generalizing blk with
  | nil => simp at hr
  | cons q rs ih =>
    cases blk with
    | zero =>
      simp at hr; subst hr
      simp [List.getElem?_append_left, Block.bytes_length, hj]
    | succ blk =>
      have := ih (blk := blk) (by simpa using hr)
      rw [List.flatMap_cons, List.getElem?_append_right (by rw [Block.bytes_length]; omega),
        Block.bytes_length, ← this]
      congr 1; omega

/-- `LE32` of the four bytes of a u32 gives it back. -/
theorem le32_of_bytes (v : Word) :
    le32 (v.extractLsb' 0 8) (v.extractLsb' 8 8) (v.extractLsb' 16 8) (v.extractLsb' 24 8) = v := by
  unfold le32
  ext i hi
  simp only [BitVec.getElem_append, BitVec.getElem_extractLsb']
  split
  · simp [BitVec.getLsbD_eq_getElem, *]
  · split
    · simp [BitVec.getLsbD_eq_getElem hi, show 8 + (i - 8) = i by omega]
    · split
      · simp [BitVec.getLsbD_eq_getElem hi, show 16 + (i - 8 - 8) = i by omega]
      · simp [BitVec.getLsbD_eq_getElem hi, show 24 + (i - 8 - 8 - 8) = i by omega]

/-- Decoding the output bytes of returned pairs gives the pairs (R86 after R87). -/
theorem blocksOf_flatMap_bytes (rs : List Block) : blocksOf (rs.flatMap Block.bytes) = rs := by
  induction rs with
  | nil => rfl
  | cons r rs ih =>
    rw [List.flatMap_cons, blocksOf_append (n := 1) (by rw [Block.bytes_length]), ih]
    simp [Block.bytes, bytesLE32, blocksOf, le32_of_bytes]

end Sys2Proof.Machine
end

