-- ==== Sys2Proof/Laws/State.lean ====
section
/-! SUPPORT. One lemma for each field and each update of the state: what the shared operations leave
unchanged and what they write, so that no proof unfolds a record update. -/

namespace Sys2Proof.Machine

@[simp] theorem complete_key (s : State) : s.complete.key = s.key := rfl
@[simp] theorem complete_bank (s : State) : s.complete.bank = s.bank := rfl
@[simp] theorem complete_work (s : State) : s.complete.work = s.work := rfl
@[simp] theorem complete_seq (s : State) : s.complete.seq = s.seq := rfl
@[simp] theorem complete_keyValid (s : State) : s.complete.keyValid = s.keyValid := rfl
@[simp] theorem complete_sboxValid (s : State) : s.complete.sboxValid = s.sboxValid := rfl
@[simp] theorem complete_err (s : State) : s.complete.err = .ok := rfl
@[simp] theorem complete_running (s : State) : s.complete.running = none := rfl
@[simp] theorem complete_klen (s : State) : s.complete.klen = s.klen := rfl
@[simp] theorem complete_slen (s : State) : s.complete.slen = s.slen := rfl
@[simp] theorem complete_ilen (s : State) : s.complete.ilen = s.ilen := rfl
@[simp] theorem complete_olen (s : State) : s.complete.olen = s.olen := rfl
@[simp] theorem complete_keybuf (s : State) : s.complete.keybuf = s.keybuf := rfl
@[simp] theorem complete_sboxbuf (s : State) : s.complete.sboxbuf = s.sboxbuf := rfl
@[simp] theorem complete_inbuf (s : State) : s.complete.inbuf = s.inbuf := rfl
@[simp] theorem complete_outbuf (s : State) : s.complete.outbuf = s.outbuf := rfl
@[simp] theorem complete_schedule (s : State) : s.complete.schedule = s.schedule := rfl
@[simp] theorem complete_hostRead (s : State) : s.complete.hostRead = s.hostRead := rfl
@[simp] theorem complete_draws (s : State) : s.complete.draws = s.draws := rfl
@[simp] theorem complete_epoch (s : State) : s.complete.epoch = s.epoch := rfl

@[simp] theorem raise_key (s : State) (e : ErrCode) : (s.raise e).key = s.key := rfl
@[simp] theorem raise_bank (s : State) (e : ErrCode) : (s.raise e).bank = s.bank := rfl
@[simp] theorem raise_work (s : State) (e : ErrCode) : (s.raise e).work = s.work := rfl
@[simp] theorem raise_seq (s : State) (e : ErrCode) : (s.raise e).seq = s.seq := rfl
@[simp] theorem raise_err (s : State) (e : ErrCode) : (s.raise e).err = e := rfl
@[simp] theorem raise_running (s : State) (e : ErrCode) : (s.raise e).running = none := rfl
@[simp] theorem raise_klen (s : State) (e : ErrCode) : (s.raise e).klen = s.klen := rfl
@[simp] theorem raise_slen (s : State) (e : ErrCode) : (s.raise e).slen = s.slen := rfl
@[simp] theorem raise_ilen (s : State) (e : ErrCode) : (s.raise e).ilen = s.ilen := rfl
@[simp] theorem raise_olen (s : State) (e : ErrCode) : (s.raise e).olen = s.olen := rfl
@[simp] theorem raise_keybuf (s : State) (e : ErrCode) : (s.raise e).keybuf = s.keybuf := rfl
@[simp] theorem raise_sboxbuf (s : State) (e : ErrCode) : (s.raise e).sboxbuf = s.sboxbuf := rfl
@[simp] theorem raise_inbuf (s : State) (e : ErrCode) : (s.raise e).inbuf = s.inbuf := rfl
@[simp] theorem raise_outbuf (s : State) (e : ErrCode) : (s.raise e).outbuf = s.outbuf := rfl
@[simp] theorem raise_schedule (s : State) (e : ErrCode) : (s.raise e).schedule = s.schedule := rfl
@[simp] theorem raise_hostRead (s : State) (e : ErrCode) : (s.raise e).hostRead = s.hostRead := rfl
@[simp] theorem raise_draws (s : State) (e : ErrCode) : (s.raise e).draws = s.draws := rfl
@[simp] theorem raise_epoch (s : State) (e : ErrCode) : (s.raise e).epoch = s.epoch := rfl

@[simp] theorem releaseWork_key (s : State) : s.releaseWork.key = s.key := rfl
@[simp] theorem releaseWork_bank (s : State) : s.releaseWork.bank = s.bank := rfl
@[simp] theorem releaseWork_work (s : State) : s.releaseWork.work = ⟨Config.freeN1 s.draws, Config.freeN2 s.draws⟩ := rfl
@[simp] theorem releaseWork_seq (s : State) : s.releaseWork.seq = ⟨Config.freeBlk s.draws, Config.freeRnd s.draws⟩ := rfl
@[simp] theorem releaseWork_keyValid (s : State) : s.releaseWork.keyValid = s.keyValid := rfl
@[simp] theorem releaseWork_sboxValid (s : State) : s.releaseWork.sboxValid = s.sboxValid := rfl
@[simp] theorem releaseWork_err (s : State) : s.releaseWork.err = s.err := rfl
@[simp] theorem releaseWork_running (s : State) : s.releaseWork.running = s.running := rfl
@[simp] theorem releaseWork_klen (s : State) : s.releaseWork.klen = s.klen := rfl
@[simp] theorem releaseWork_slen (s : State) : s.releaseWork.slen = s.slen := rfl
@[simp] theorem releaseWork_ilen (s : State) : s.releaseWork.ilen = s.ilen := rfl
@[simp] theorem releaseWork_olen (s : State) : s.releaseWork.olen = s.olen := rfl
@[simp] theorem releaseWork_keybuf (s : State) : s.releaseWork.keybuf = s.keybuf := rfl
@[simp] theorem releaseWork_sboxbuf (s : State) : s.releaseWork.sboxbuf = s.sboxbuf := rfl
@[simp] theorem releaseWork_inbuf (s : State) : s.releaseWork.inbuf = s.inbuf := rfl
@[simp] theorem releaseWork_outbuf (s : State) : s.releaseWork.outbuf = s.outbuf := rfl
@[simp] theorem releaseWork_schedule (s : State) : s.releaseWork.schedule = s.schedule := rfl
@[simp] theorem releaseWork_hostRead (s : State) : s.releaseWork.hostRead = s.hostRead := rfl
@[simp] theorem releaseWork_draws (s : State) : s.releaseWork.draws = s.draws + 1 := rfl
@[simp] theorem releaseWork_epoch (s : State) : s.releaseWork.epoch = s.epoch := rfl

@[simp] theorem deliver_key (s : State) (rs : List Block) : (s.deliver rs).key = s.key := rfl
@[simp] theorem deliver_bank (s : State) (rs : List Block) : (s.deliver rs).bank = s.bank := rfl
@[simp] theorem deliver_work (s : State) (rs : List Block) : (s.deliver rs).work = ⟨Config.freeN1 s.draws, Config.freeN2 s.draws⟩ := rfl
@[simp] theorem deliver_seq (s : State) (rs : List Block) : (s.deliver rs).seq = ⟨Config.freeBlk s.draws, Config.freeRnd s.draws⟩ := rfl
@[simp] theorem deliver_keyValid (s : State) (rs : List Block) : (s.deliver rs).keyValid = s.keyValid := rfl
@[simp] theorem deliver_sboxValid (s : State) (rs : List Block) : (s.deliver rs).sboxValid = s.sboxValid := rfl
@[simp] theorem deliver_err (s : State) (rs : List Block) : (s.deliver rs).err = s.err := rfl
@[simp] theorem deliver_running (s : State) (rs : List Block) : (s.deliver rs).running = s.running := rfl
@[simp] theorem deliver_klen (s : State) (rs : List Block) : (s.deliver rs).klen = s.klen := rfl
@[simp] theorem deliver_slen (s : State) (rs : List Block) : (s.deliver rs).slen = s.slen := rfl
@[simp] theorem deliver_ilen (s : State) (rs : List Block) : (s.deliver rs).ilen = s.ilen := rfl
@[simp] theorem deliver_olen (s : State) (rs : List Block) : (s.deliver rs).olen = 8 * rs.length := rfl
@[simp] theorem deliver_keybuf (s : State) (rs : List Block) : (s.deliver rs).keybuf = s.keybuf := rfl
@[simp] theorem deliver_sboxbuf (s : State) (rs : List Block) : (s.deliver rs).sboxbuf = s.sboxbuf := rfl
@[simp] theorem deliver_inbuf (s : State) (rs : List Block) : (s.deliver rs).inbuf = s.inbuf := rfl
@[simp] theorem deliver_outbuf (s : State) (rs : List Block) : (s.deliver rs).outbuf = Memory.ofBytesFrom 0 (rs.flatMap Block.bytes) := rfl
@[simp] theorem deliver_schedule (s : State) (rs : List Block) : (s.deliver rs).schedule = s.schedule := rfl
@[simp] theorem deliver_hostRead (s : State) (rs : List Block) : (s.deliver rs).hostRead = s.hostRead := rfl
@[simp] theorem deliver_draws (s : State) (rs : List Block) : (s.deliver rs).draws = s.draws + 1 := rfl
@[simp] theorem deliver_epoch (s : State) (rs : List Block) : (s.deliver rs).epoch = s.epoch := rfl

@[simp] theorem returnToHost_key (s : State) (v : Nat) : (s.returnToHost v).key = s.key := rfl
@[simp] theorem returnToHost_bank (s : State) (v : Nat) : (s.returnToHost v).bank = s.bank := rfl
@[simp] theorem returnToHost_work (s : State) (v : Nat) : (s.returnToHost v).work = s.work := rfl
@[simp] theorem returnToHost_seq (s : State) (v : Nat) : (s.returnToHost v).seq = s.seq := rfl
@[simp] theorem returnToHost_keyValid (s : State) (v : Nat) : (s.returnToHost v).keyValid = s.keyValid := rfl
@[simp] theorem returnToHost_sboxValid (s : State) (v : Nat) : (s.returnToHost v).sboxValid = s.sboxValid := rfl
@[simp] theorem returnToHost_err (s : State) (v : Nat) : (s.returnToHost v).err = s.err := rfl
@[simp] theorem returnToHost_running (s : State) (v : Nat) : (s.returnToHost v).running = s.running := rfl
@[simp] theorem returnToHost_klen (s : State) (v : Nat) : (s.returnToHost v).klen = s.klen := rfl
@[simp] theorem returnToHost_slen (s : State) (v : Nat) : (s.returnToHost v).slen = s.slen := rfl
@[simp] theorem returnToHost_ilen (s : State) (v : Nat) : (s.returnToHost v).ilen = s.ilen := rfl
@[simp] theorem returnToHost_olen (s : State) (v : Nat) : (s.returnToHost v).olen = s.olen := rfl
@[simp] theorem returnToHost_keybuf (s : State) (v : Nat) : (s.returnToHost v).keybuf = s.keybuf := rfl
@[simp] theorem returnToHost_sboxbuf (s : State) (v : Nat) : (s.returnToHost v).sboxbuf = s.sboxbuf := rfl
@[simp] theorem returnToHost_inbuf (s : State) (v : Nat) : (s.returnToHost v).inbuf = s.inbuf := rfl
@[simp] theorem returnToHost_outbuf (s : State) (v : Nat) : (s.returnToHost v).outbuf = s.outbuf := rfl
@[simp] theorem returnToHost_schedule (s : State) (v : Nat) : (s.returnToHost v).schedule = s.schedule := rfl
@[simp] theorem returnToHost_hostRead (s : State) (v : Nat) : (s.returnToHost v).hostRead = some v := rfl
@[simp] theorem returnToHost_draws (s : State) (v : Nat) : (s.returnToHost v).draws = s.draws := rfl
@[simp] theorem returnToHost_epoch (s : State) (v : Nat) : (s.returnToHost v).epoch = s.epoch := rfl

@[simp] theorem resetSignal_key (s : State) : s.resetSignal.key = State.reset.key := rfl
@[simp] theorem resetSignal_bank (s : State) : s.resetSignal.bank = State.reset.bank := rfl
@[simp] theorem resetSignal_work (s : State) : s.resetSignal.work = State.reset.work := rfl
@[simp] theorem resetSignal_seq (s : State) : s.resetSignal.seq = State.reset.seq := rfl
@[simp] theorem resetSignal_keyValid (s : State) : s.resetSignal.keyValid = State.reset.keyValid := rfl
@[simp] theorem resetSignal_sboxValid (s : State) : s.resetSignal.sboxValid = State.reset.sboxValid := rfl
@[simp] theorem resetSignal_err (s : State) : s.resetSignal.err = State.reset.err := rfl
@[simp] theorem resetSignal_running (s : State) : s.resetSignal.running = State.reset.running := rfl
@[simp] theorem resetSignal_klen (s : State) : s.resetSignal.klen = State.reset.klen := rfl
@[simp] theorem resetSignal_slen (s : State) : s.resetSignal.slen = State.reset.slen := rfl
@[simp] theorem resetSignal_ilen (s : State) : s.resetSignal.ilen = State.reset.ilen := rfl
@[simp] theorem resetSignal_olen (s : State) : s.resetSignal.olen = State.reset.olen := rfl
@[simp] theorem resetSignal_keybuf (s : State) : s.resetSignal.keybuf = State.reset.keybuf := rfl
@[simp] theorem resetSignal_sboxbuf (s : State) : s.resetSignal.sboxbuf = State.reset.sboxbuf := rfl
@[simp] theorem resetSignal_inbuf (s : State) : s.resetSignal.inbuf = State.reset.inbuf := rfl
@[simp] theorem resetSignal_outbuf (s : State) : s.resetSignal.outbuf = State.reset.outbuf := rfl
@[simp] theorem resetSignal_schedule (s : State) : s.resetSignal.schedule = s.schedule := rfl
@[simp] theorem resetSignal_hostRead (s : State) : s.resetSignal.hostRead = s.hostRead := rfl
@[simp] theorem resetSignal_draws (s : State) : s.resetSignal.draws = s.draws := rfl
@[simp] theorem resetSignal_epoch (s : State) : s.resetSignal.epoch = s.epoch + 1 := rfl

@[simp] theorem placeCommand_key (s : State) (nbits w : Nat) : (s.placeCommand nbits w).key = s.key := rfl
@[simp] theorem placeCommand_bank (s : State) (nbits w : Nat) : (s.placeCommand nbits w).bank = s.bank := rfl
@[simp] theorem placeCommand_work (s : State) (nbits w : Nat) : (s.placeCommand nbits w).work = s.work := rfl
@[simp] theorem placeCommand_seq (s : State) (nbits w : Nat) : (s.placeCommand nbits w).seq = s.seq := rfl
@[simp] theorem placeCommand_keyValid (s : State) (nbits w : Nat) : (s.placeCommand nbits w).keyValid = s.keyValid := rfl
@[simp] theorem placeCommand_sboxValid (s : State) (nbits w : Nat) : (s.placeCommand nbits w).sboxValid = s.sboxValid := rfl
@[simp] theorem placeCommand_err (s : State) (nbits w : Nat) : (s.placeCommand nbits w).err = s.err := rfl
@[simp] theorem placeCommand_running (s : State) (nbits w : Nat) : (s.placeCommand nbits w).running = (tableBytes nbits w).head? := rfl
@[simp] theorem placeCommand_klen (s : State) (nbits w : Nat) : (s.placeCommand nbits w).klen = s.klen := rfl
@[simp] theorem placeCommand_slen (s : State) (nbits w : Nat) : (s.placeCommand nbits w).slen = s.slen := rfl
@[simp] theorem placeCommand_ilen (s : State) (nbits w : Nat) : (s.placeCommand nbits w).ilen = s.ilen := rfl
@[simp] theorem placeCommand_olen (s : State) (nbits w : Nat) : (s.placeCommand nbits w).olen = s.olen := rfl
@[simp] theorem placeCommand_keybuf (s : State) (nbits w : Nat) : (s.placeCommand nbits w).keybuf = s.keybuf := rfl
@[simp] theorem placeCommand_sboxbuf (s : State) (nbits w : Nat) : (s.placeCommand nbits w).sboxbuf = s.sboxbuf := rfl
@[simp] theorem placeCommand_inbuf (s : State) (nbits w : Nat) : (s.placeCommand nbits w).inbuf = s.inbuf := rfl
@[simp] theorem placeCommand_outbuf (s : State) (nbits w : Nat) : (s.placeCommand nbits w).outbuf = s.outbuf := rfl
@[simp] theorem placeCommand_schedule (s : State) (nbits w : Nat) : (s.placeCommand nbits w).schedule = .engine :: s.schedule := rfl
@[simp] theorem placeCommand_hostRead (s : State) (nbits w : Nat) : (s.placeCommand nbits w).hostRead = s.hostRead := rfl
@[simp] theorem placeCommand_draws (s : State) (nbits w : Nat) : (s.placeCommand nbits w).draws = s.draws := rfl
@[simp] theorem placeCommand_epoch (s : State) (nbits w : Nat) : (s.placeCommand nbits w).epoch = s.epoch := rfl

theorem raise_keyValid (s : State) (e : ErrCode) :
    (s.raise e).keyValid = (decide (e ≠ .invalidKeyLength) && s.keyValid) := by cases e <;> rfl

theorem raise_sboxValid (s : State) (e : ErrCode) :
    (s.raise e).sboxValid = (decide (e ≠ .invalidSBoxLength) && s.sboxValid) := by cases e <;> rfl

@[simp] theorem space_keybuf (s : State) : s.space .keybuf = s.keybuf := rfl
@[simp] theorem space_sboxbuf (s : State) : s.space .sboxbuf = s.sboxbuf := rfl
@[simp] theorem space_inbuf (s : State) : s.space .inbuf = s.inbuf := rfl
@[simp] theorem space_outbuf (s : State) : s.space .outbuf = s.outbuf := rfl

end Sys2Proof.Machine
end

