-- ==== Sys2Proof/Laws/Exec.lean ====
section
/-! SUPPORT. Once for each operation, everything it can do: the four meanings, a command code, the
host's accesses, and a step. Later proofs cite these and unfold nothing. -/

namespace Sys2Proof.Machine

open Host

/-- The state of a successful `LDKEY` (R60). -/
theorem execLdkey_of_klen {s : State} (h : s.klen = 32) :
    execLdkey s = .next (State.complete { s with key := s.keyOperand, keyValid := true }) := by
  simp [execLdkey, Config.keyBytes, h]

theorem execLdkey_of_klen_ne {s : State} (h : s.klen ≠ 32) :
    execLdkey s = .next (s.raise .invalidKeyLength) := by
  simp [execLdkey, Config.keyBytes, h]

/-- The state of a successful `LDSBOX` (R61). -/
theorem execLdsbox_of_slen {s : State} (h : 64 ≤ s.slen) :
    execLdsbox s = .next (State.complete { s with bank := s.bankOperand, sboxValid := true }) := by
  simp [execLdsbox, Config.sboxBytes, Nat.not_lt.mpr h]

theorem execLdsbox_of_slen_lt {s : State} (h : s.slen < 64) :
    execLdsbox s = .next (s.raise .invalidSBoxLength) := by
  simp [execLdsbox, Config.sboxBytes, h]

/-- The returned pairs of `ENC` (R88). -/
def encPairs (s : State) : List Block := (blocksOf (pad s.input)).map (encBlk s.key s.bank)

/-- The returned pairs of `DEC` (R89). -/
def decPairs (s : State) : List Block := (blocksOf (zeroFill s.input)).map (decBlk s.key s.bank)

theorem execEnc_of_ready {s : State} (h : s.ready = true) :
    execEnc s = .next (s.deliver (encPairs s)).complete := by
  simp [execEnc, encPairs, h]

theorem execEnc_of_not_ready {s : State} (h : s.ready = false) :
    execEnc s = .next (s.raise .notReady) := by
  simp [execEnc, h]

theorem execDec_of_ready {s : State} (h : s.ready = true) :
    execDec s = .next (s.deliver (decPairs s)).complete := by
  simp [execDec, decPairs, h]

theorem execDec_of_not_ready {s : State} (h : s.ready = false) :
    execDec s = .next (s.raise .notReady) := by
  simp [execDec, h]

/-- Everything a command can do. -/
theorem exec_cases {i : Instr} {s t : State} (h : exec i s = .next t) :
    (i = .ldkey ∧ s.klen = 32
      ∧ t = State.complete { s with key := s.keyOperand, keyValid := true })
    ∨ (i = .ldkey ∧ s.klen ≠ 32 ∧ t = s.raise .invalidKeyLength)
    ∨ (i = .ldsbox ∧ 64 ≤ s.slen
      ∧ t = State.complete { s with bank := s.bankOperand, sboxValid := true })
    ∨ (i = .ldsbox ∧ s.slen < 64 ∧ t = s.raise .invalidSBoxLength)
    ∨ (i = .enc ∧ s.ready = true ∧ t = (s.deliver (encPairs s)).complete)
    ∨ (i = .dec ∧ s.ready = true ∧ t = (s.deliver (decPairs s)).complete)
    ∨ ((i = .enc ∨ i = .dec) ∧ s.ready = false ∧ t = s.raise .notReady) := by
  cases i with
  | ldkey =>
    change execLdkey s = _ at h
    by_cases hk : s.klen = 32
    · rw [execLdkey_of_klen hk] at h; cases h; simp [hk]
    · rw [execLdkey_of_klen_ne hk] at h; cases h; simp [hk]
  | ldsbox =>
    change execLdsbox s = _ at h
    rcases Nat.lt_or_ge s.slen 64 with hs | hs
    · rw [execLdsbox_of_slen_lt hs] at h; cases h; simp [hs]
    · rw [execLdsbox_of_slen hs] at h; cases h; simp [hs]
  | enc =>
    change execEnc s = _ at h
    cases hr : s.ready
    · rw [execEnc_of_not_ready hr] at h; cases h; simp
    · rw [execEnc_of_ready hr] at h; cases h; simp
  | dec =>
    change execDec s = _ at h
    cases hr : s.ready
    · rw [execDec_of_not_ready hr] at h; cases h; simp
    · rw [execDec_of_ready hr] at h; cases h; simp

/-- A reserved code is exactly one that is none of the four codes (R53). -/
theorem decodeCode_eq_none_iff (c : Byte) :
    decodeCode c = none ↔ c ≠ 1 ∧ c ≠ 2 ∧ c ≠ 3 ∧ c ≠ 4 := by
  revert c; decide

theorem decodeCode_eq_some_iff (c : Byte) (i : Instr) :
    decodeCode c = some i ↔ c = encodeCode i := by
  revert c; cases i <;> decide

/-- The end of a command: the meaning of its code, or `IllegalCommand`. -/
theorem runCode_cases {c : Byte} {s t : State} (h : runCode c s = .next t) :
    (∃ i, decodeCode c = some i ∧ exec i s = .next t)
    ∨ (decodeCode c = none ∧ t = s.raise .illegalCommand) := by
  unfold runCode at h
  split at h
  · next i hi => exact .inl ⟨i, hi, h⟩
  · next hi => cases h; exact .inr ⟨hi, rfl⟩

theorem engineTurn_cases {s t : State} (h : engineTurn s = .next t) :
    (s.running = none ∧ t = s) ∨ (∃ c, s.running = some c ∧ runCode c s = .next t) := by
  unfold engineTurn at h
  split at h
  · next c hc => exact .inr ⟨c, hc, h⟩
  · next hc => cases h; exact .inl ⟨hc, rfl⟩

theorem whenIdle_cases {s t : State} {act : Outcome State Fault Refusal}
    (h : s.whenIdle act = .next t) : s.running = none ∧ act = .next t := by
  unfold State.whenIdle at h
  split at h
  · cases h
  · next hb => exact ⟨by simpa [State.busy] using hb, h⟩

/-- A host read of a register changes only what the host has read. -/
theorem readRegister_cases {s t : State} {n : Nat} (h : s.readRegister n = .next t) :
    ∃ v, t = s.returnToHost v := by
  unfold State.readRegister at h
  split at h <;> first | (cases h; exact ⟨_, rfl⟩) | cases h

theorem readBuffer_cases {s t : State} {sp : Space} {a : Nat}
    (h : s.readBuffer sp a = .next t) : ∃ v, t = s.returnToHost v := by
  unfold State.readBuffer at h
  split at h <;> split at h <;> first | (cases h; exact ⟨_, rfl⟩) | cases h

/-- A host write of a register starts a command, changes one length register, or is ignored. -/
theorem writeRegister_cases {s t : State} {n v : Nat} (h : s.writeRegister n v = .next t) :
    (n = 0 ∧ v < 256 ∧ t = { s with running := some (BitVec.ofNat 8 v) })
    ∨ ((n = 1 ∨ n = 5) ∧ t = s)
    ∨ (n = 2 ∧ Config.withinLenMax v = true ∧ t = { s with klen := v })
    ∨ (n = 3 ∧ Config.withinLenMax v = true ∧ t = { s with slen := v })
    ∨ (n = 4 ∧ Config.withinLenMax v = true ∧ t = { s with ilen := v }) := by
  unfold State.writeRegister at h
  split at h
  all_goals first
    | (split at h
       · next hc => cases h; simp [hc]
       · cases h)
    | (cases h; simp)
    | cases h

/-- A host write of a byte changes one input space. -/
theorem writeBuffer_cases {s t : State} {sp : Space} {a : Nat} {b : Byte}
    (h : s.writeBuffer sp a b = .next t) :
    Config.withinLenMax (a + 1) = true
    ∧ ((sp = .keybuf ∧ t = { s with keybuf := Memory.write s.keybuf a b })
      ∨ (sp = .sboxbuf ∧ t = { s with sboxbuf := Memory.write s.sboxbuf a b })
      ∨ (sp = .inbuf ∧ t = { s with inbuf := Memory.write s.inbuf a b })) := by
  unfold State.writeBuffer at h
  split at h
  · cases h
  all_goals
    split at h
    · next hc => cases h; simp [hc]
    · cases h

/-- A host register read, `STATUS` at any time and the others when idle. -/
theorem hostReadRegister_cases {s t : State} {n : Nat} (h : s.hostReadRegister n = .next t) :
    ∃ v, t = s.returnToHost v := by
  unfold State.hostReadRegister at h
  split at h
  · exact readRegister_cases h
  · exact readRegister_cases (whenIdle_cases h).2

/-- Everything a move can do. -/
theorem move_cases {e : Event} {s t : State} (h : move e s = .next t) :
    (e = .engine ∧ engineTurn s = .next t)
    ∨ (e = .reset ∧ t = s.resetSignal)
    ∨ (∃ v, t = s.returnToHost v)
    ∨ (∃ n v, e = .writeReg n v ∧ s.running = none ∧ s.writeRegister n v = .next t)
    ∨ (∃ sp a b, e = .writeBuf sp a b ∧ s.running = none ∧ s.writeBuffer sp a b = .next t) := by
  cases e with
  | engine => exact .inl ⟨rfl, h⟩
  | reset => cases h; exact .inr (.inl ⟨rfl, rfl⟩)
  | readReg n => exact .inr (.inr (.inl (hostReadRegister_cases h)))
  | writeReg n v =>
    obtain ⟨hi, hw⟩ := whenIdle_cases h
    exact .inr (.inr (.inr (.inl ⟨n, v, rfl, hi, hw⟩)))
  | readBuf sp a => exact .inr (.inr (.inl (readBuffer_cases (whenIdle_cases h).2)))
  | writeBuf sp a b =>
    obtain ⟨hi, hw⟩ := whenIdle_cases h
    exact .inr (.inr (.inr (.inr ⟨sp, a, b, rfl, hi, hw⟩)))

/-- A step is the engine's turn when the script is empty, else the script's next move. -/
theorem step_cases {s t : State} (h : step s = .next t) :
    (s.schedule = [] ∧ engineTurn s = .next t)
    ∨ (∃ e rest, s.schedule = e :: rest ∧ move e { s with schedule := rest } = .next t) := by
  unfold step nextMove at h
  split at h
  · next hs => exact .inl ⟨hs, h⟩
  · next e rest hs => exact .inr ⟨e, rest, hs, h⟩

end Sys2Proof.Machine
end

