-- ==== Sys2Proof/Laws/PerInstr.lean ====
section
/-! SUPPORT. The family `OneByteCode`: what holds of each instruction as syntax (R50, R51). -/

namespace Sys2Proof.Laws.OneByteCode

/-- R50, R51: a well-formed command is one byte long and its byte decodes to it, whatever follows. -/
def Statement (i : Instr) : Prop :=
  i.wellFormed = true → (encode i).length = 1 ∧ ∀ rest, decode (encode i ++ rest) = .ok (i, rest)

theorem ldkey : Statement .ldkey := fun _ => ⟨rfl, fun _ => rfl⟩

theorem ldsbox : Statement .ldsbox := fun _ => ⟨rfl, fun _ => rfl⟩

theorem enc : Statement .enc := fun _ => ⟨rfl, fun _ => rfl⟩

theorem dec : Statement .dec := fun _ => ⟨rfl, fun _ => rfl⟩

end Sys2Proof.Laws.OneByteCode
end

