-- ==== Sys2Proof/Tests/Slice0.lean ====
section
/-! SUPPORT. The model's own tests: ill-formed moves, command words written out bit by bit, vectors
of spec/95_test_vectors.md (each named in its comment), and a witness for the hypotheses of every
statement. -/

namespace Sys2Proof.Tests

open Sys2Proof.Machine Host

/-! ### Ill-formed moves: one for each check of WellFormed.lean -/

theorem test_wf_every_instr :
    ∀ i : Instr, i.wellFormed = true := by intro i; cases i <;> rfl

theorem test_ill_read_of_cmd : (Event.readReg 0).wellFormed = false := by decide
theorem test_ill_read_of_register_6 : (Event.readReg 6).wellFormed = false := by decide
theorem test_ill_write_of_register_6 : (Event.writeReg 6 0).wellFormed = false := by decide
theorem test_ill_command_not_a_byte : (Event.writeReg 0 256).wellFormed = false := by decide
theorem test_ill_write_of_outbuf : (Event.writeBuf .outbuf 0 0).wellFormed = false := by decide

theorem test_ill_length_above_max (m : Nat) (h : Config.lenMaxAbove64 = some m) :
    (Event.writeReg 2 (65 + m)).wellFormed = false := by
  simp [Event.wellFormed, Event.registerWrite, Config.withinLenMax, h]; omega

theorem test_ill_address_above_max (m : Nat) (h : Config.lenMaxAbove64 = some m) :
    (Event.readBuf .inbuf (64 + m)).wellFormed = false := by
  simp [Event.wellFormed, Config.withinLenMax, h]

theorem test_wf_length_64 : (Event.writeReg 4 64).wellFormed = true := by decide

/-! ### Command words, bit by bit from R51 -/

theorem test_decode_ldkey : decodeCode 0b00000001 = some .ldkey := by decide
theorem test_decode_ldsbox : decodeCode 0b00000010 = some .ldsbox := by decide
theorem test_decode_enc : decodeCode 0b00000011 = some .enc := by decide
theorem test_decode_dec : decodeCode 0b00000100 = some .dec := by decide

/-- Section 3.6: `0x83` is reserved, all 8 bits are compared; and the ends of the reserved range. -/
theorem test_decode_reserved :
    decodeCode 0x83 = none ∧ decodeCode 0x00 = none ∧ decodeCode 0x05 = none
      ∧ decodeCode 0xFF = none := by decide

/-- No two rows of the opcode map overlap. -/
theorem test_opcode_rows_disjoint :
    opcodeTable.Pairwise fun p q => p.match8 &&& q.mask8 ≠ q.match8 &&& p.mask8 := by decide

theorem test_table_word_enc : decodeTableWord 8 3 = some .enc := by decide

/-! ### Keys, banks and states of section 2 -/

/-- The bytes of a list of numbers. -/
def bytes (ns : List Nat) : List Byte := ns.map (BitVec.ofNat 8)

/-- A space holding the bytes of a list of numbers. -/
def space (ns : List Nat) : Memory := Memory.ofBytesFrom 0 (bytes ns)

/-- Key `KA`: byte `n` holds `n`. -/
def keyA : List Nat := List.range 32

/-- Bank `ID`: the row `10 32 54 76 98 BA DC FE` eight times. -/
def bankId : List Nat :=
  (List.replicate 8 [0x10, 0x32, 0x54, 0x76, 0x98, 0xBA, 0xDC, 0xFE]).flatten

/-- Bank `AFF`. -/
def bankAff : List Nat :=
  [0x61, 0x0B, 0xA5, 0x4F, 0xE9, 0x83, 0x2D, 0xC7] ++ [0x94, 0x3E, 0xD8, 0x72, 0x1C, 0xB6, 0x50, 0xFA]
  ++ [0xC7, 0x61, 0x0B, 0xA5, 0x4F, 0xE9, 0x83, 0x2D]
  ++ [0xFA, 0x94, 0x3E, 0xD8, 0x72, 0x1C, 0xB6, 0x50]
  ++ [0x2D, 0xC7, 0x61, 0x0B, 0xA5, 0x4F, 0xE9, 0x83]
  ++ [0x50, 0xFA, 0x94, 0x3E, 0xD8, 0x72, 0x1C, 0xB6]
  ++ [0x83, 0x2D, 0xC7, 0x61, 0x0B, 0xA5, 0x4F, 0xE9]
  ++ [0xB6, 0x50, 0xFA, 0x94, 0x3E, 0xD8, 0x72, 0x1C]

/-- After reset, with the three input spaces and their lengths set. -/
def setUp (kb sb ib : List Nat) : State :=
  { State.reset with
    keybuf := space kb, klen := kb.length, sboxbuf := space sb, slen := sb.length
    inbuf := space ib, ilen := ib.length }

/-- With key and bank loaded from the buffers. -/
def readyWith (kb sb ib : List Nat) : State :=
  { setUp kb sb ib with
    key := (setUp kb sb ib).keyOperand, bank := (setUp kb sb ib).bankOperand
    keyValid := true, sboxValid := true }

/-- The next state of an outcome, for reading one field of it. -/
def after (o : Outcome State Fault Refusal) : State :=
  match o with
  | .next t => t
  | .fault _ => State.reset
  | .refused _ => State.reset

/-! ### Vectors of sections 3.1 to 3.6 -/

/-- 3.1: `KA`, first byte the least significant, last four bytes in `K[7]`; `STATUS` is `0x02`. -/
theorem test_ldkey_order :
    (after (exec .ldkey (setUp keyA [] []))).key[0] = 0x03020100
      ∧ (after (exec .ldkey (setUp keyA [] []))).key[7] = 0x1F1E1D1C
      ∧ (after (exec .ldkey (setUp keyA [] []))).status = 0x02 := by decide +kernel

/-- 3.6: key and bank valid, `LDKEY` with `KLEN = 31` gives `0x14`. -/
theorem test_ldkey_31_clears_key :
    (after (exec .ldkey { readyWith keyA bankId [] with klen := 31 })).status = 0x14 := by
  decide +kernel

/-- 3.1: `SBOXBUF[8*3 + 5] = 0xC4` gives `S[3][10] = 0x4` and `S[3][11] = 0xC`. -/
theorem test_ldsbox_low_nibble_first :
    (after (exec .ldsbox (setUp [] (List.replicate 29 0 ++ [0xC4] ++ List.replicate 34 0) []))).bank[3]
      = #v[0, 0, 0, 0, 0, 0, 0, 0, 0, 0, 0x4, 0xC, 0, 0, 0, 0] := by decide +kernel

/-- 3.6: key and bank valid, `LDSBOX` with `SLEN = 63` gives `0x22`. -/
theorem test_ldsbox_63_clears_bank :
    (after (exec .ldsbox { readyWith keyA bankId [] with slen := 63 })).status = 0x22 := by
  decide +kernel

/-- 3.2: bank `AFF`, the general row: table, position and rotation. -/
theorem test_round_function :
    roundF 0x12345678 0x9ABCDEF0 (readyWith keyA bankAff []).bank = 0x94814C7D
      ∧ roundF 0xFFFFFFFF 0x00000001 (readyWith keyA bankAff []).bank = 0x6D3A0B18 := by
  decide +kernel

/-- 3.3: one round of the trace, then the whole block, under `ID` and `KA`. -/
theorem test_encblk :
    feistelRound (readyWith keyA bankId []).bank 0x03020100 ⟨0x04030201, 0x08070605⟩
        = ⟨0x201F0E3D, 0x04030201⟩
      ∧ encBlk (readyWith keyA bankId []).key (readyWith keyA bankId []).bank
          ⟨0x04030201, 0x08070605⟩ = ⟨0xB2129DB1, 0x3FA0A68A⟩ := by decide +kernel

/-- 3.4: padding at 7, 8 and 9 bytes. -/
theorem test_pad :
    pad (bytes [0x41, 0x42, 0x43, 0x44, 0x45, 0x46, 0x47])
        = bytes [0x41, 0x42, 0x43, 0x44, 0x45, 0x46, 0x47, 0x01]
      ∧ pad (bytes (List.replicate 8 0x41)) = bytes (List.replicate 8 0x41)
      ∧ pad (bytes (List.replicate 9 0x41))
        = bytes (List.replicate 9 0x41 ++ List.replicate 7 0x07) := by decide

/-- 3.5: `AFF`, `KA`, `ENC` of 13 bytes: two blocks, three pad bytes. -/
theorem test_enc_13_bytes :
    (after (exec .enc (readyWith keyA bankAff
        [0x48, 0x65, 0x6C, 0x6C, 0x6F, 0x2C, 0x20, 0x47, 0x4F, 0x53, 0x54, 0x21, 0x21]))).result
      = bytes [0x93, 0x34, 0xD4, 0x60, 0x87, 0x2A, 0x7C, 0xA4, 0x61, 0xF7, 0x15, 0x2C, 0x8C, 0x0F,
          0x3B, 0x74] := by decide +kernel

/-- 3.6: key valid only, `ENC` with `ILEN = 0` gives `0x32`: `NotReady` before the empty case. -/
theorem test_enc_not_ready :
    (after (exec .enc { State.reset with keyValid := true })).status = 0x32 := by decide

/-- 3.5: `AFF`, `KA`, `DEC` of 11 bytes: the last chunk zero-filled, `OLEN = 16`. -/
theorem test_dec_11_bytes :
    (after (exec .dec (readyWith keyA bankAff
        [0xAA, 0xBB, 0xCC, 0xDD, 0xEE, 0x01, 0x02, 0x03, 0x04, 0x05, 0x06]))).result
      = bytes [0x13, 0xF6, 0xAF, 0x27, 0x12, 0x97, 0xDE, 0x10, 0x72, 0xD0, 0x3D, 0xAF, 0x09, 0x6D,
          0x74, 0x68] := by decide +kernel

/-- 3.5: `DEC` of the empty input: success with `OLEN = 0`. -/
theorem test_dec_empty :
    (after (exec .dec (readyWith keyA bankId []))).olen = 0
      ∧ (after (exec .dec (readyWith keyA bankId []))).status = 0x06 := by decide +kernel

/-- 3.6: a reserved code with key and bank valid gives `0x46`. -/
theorem test_reserved_code :
    (after (step { readyWith keyA bankId [] with running := some 0x83 })).status = 0x46 := by
  decide +kernel

/-- 3.6: the first command after reset, placed for the next step: `LDKEY` with `KLEN = 0` gives
`0x10`. -/
theorem test_placed_ldkey_after_reset :
    (after (step (State.reset.withFetchWord 8 1))).status = 0x10 := by decide

/-- R121: a host write of `CMD` while a command executes is refused. -/
theorem test_busy_refuses_command :
    (match step { State.reset with running := some 3, schedule := [.writeReg 0 1] } with
      | .refused r => decide (r = .hostActionWhileBusy)
      | _ => false) = true := by decide

/-! ### Witnesses: the hypotheses of each statement can all hold together -/

/-- Eight input bytes. -/
def eight : List Nat := [1, 2, 3, 4, 5, 6, 7, 8]

theorem witness_reserved_codes :
    ((0x00 : Byte) = 0x00 ∨ 0x05 ≤ (0x00 : Byte).toNat)
      ∧ ((0x05 : Byte) = 0x00 ∨ 0x05 ≤ (0x05 : Byte).toNat)
      ∧ ∃ s : State, s.running = none ∧ s.schedule = .writeReg 0 (0x05 : Byte).toNat :: .engine :: [] :=
  ⟨by decide, by decide, { State.reset with schedule := [.writeReg 0 5, .engine] }, rfl, rfl⟩

/-- A decoded code with each place of the engine's turn, and the two ends of the reserved codes:
`0x00` with an empty script, `0x05` with a host move behind the turn. -/
theorem witness_step_runs_decoded :
    (∃ s u : State, s.running = some 3 ∧ decode [3] = .ok (.enc, []) ∧ Instr.enc.wellFormed = true
        ∧ s.schedule = [] ∧ u = s)
      ∧ (∃ s u : State, s.running = some 3 ∧ decode [3] = .ok (.enc, [])
        ∧ s.schedule = .engine :: [.readReg 1] ∧ u = { s with schedule := [.readReg 1] })
      ∧ (∃ s u : State, s.running = some (0x00 : Byte) ∧ s.schedule = [] ∧ u = s)
      ∧ ∃ s u : State, s.running = some (0x05 : Byte) ∧ 0x05 ≤ (0x05 : Byte).toNat
        ∧ s.schedule = .engine :: [.readReg 1] ∧ u = { s with schedule := [.readReg 1] } :=
  ⟨⟨{ State.reset with running := some 3 }, _, rfl, rfl, rfl, rfl, rfl⟩,
    ⟨{ State.reset with running := some 3, schedule := [.engine, .readReg 1] }, _, rfl, rfl, rfl, rfl⟩,
    ⟨{ State.reset with running := some 0 }, _, rfl, rfl, rfl⟩,
    { State.reset with running := some 5, schedule := [.engine, .readReg 1] }, _, rfl, by decide,
    rfl, rfl⟩

theorem witness_command_write :
    ∃ s : State, s.running = none ∧ s.schedule = .writeReg 0 (0xFF : Byte).toNat :: [] :=
  ⟨{ State.reset with schedule := [.writeReg 0 255] }, rfl, rfl⟩

theorem witness_polled_command :
    ∃ s : State, s.busy = true ∧ s.schedule = List.replicate 2 (.readReg 1) :=
  ⟨{ State.reset with running := some 4, schedule := [.readReg 1, .readReg 1] }, rfl, rfl⟩

theorem witness_ldkey :
    (setUp keyA [] []).klen = 32 ∧ (setUp (List.range 31) [] []).klen ≠ 32
      ∧ (setUp (List.range 33) [] []).klen ≠ 32 := by decide

theorem witness_ldsbox :
    64 ≤ (setUp [] bankId []).slen ∧ (setUp [] (List.range 63) []).slen < 64
      ∧ (14 : Fin 16).val = 2 * (7 : Fin 8).val ∧ (15 : Fin 16).val = 2 * (7 : Fin 8).val + 1 := by
  decide

/-- The buffer `ID` is the packing of the bank it loads. -/
theorem witness_packed_bank :
    64 ≤ (setUp [] bankId []).slen
      ∧ ∀ (i j : Fin 8) (lo hi : Fin 16), lo.val = 2 * j.val → hi.val = 2 * j.val + 1 →
        ((setUp [] bankId []).byteAt .sboxbuf (8 * i.val + j.val)).toNat
          = ((readyWith [] bankId []).bank[i][lo]).toNat
            + 16 * ((readyWith [] bankId []).bank[i][hi]).toNat := by decide +kernel

/-- The nibble at position 7 of the sum of the row 3.2 general is 0xA. -/
theorem witness_round_function :
    ((0x12345678 : Word).toNat + (0x9ABCDEF0 : Word).toNat) % 2 ^ 32 / 16 ^ (7 : Fin 8).val % 16
        = (0xA : Fin 16).val ∧ 31 < 32 := by decide

/-- A run of the engine itself is a trace for `ENCBLK`. -/
theorem witness_encblk_trace (K : Key) (S : Bank) (a b : Word) :
    ∃ n1 n2 : Nat → Word, n1 0 = a ∧ n2 0 = b ∧
      ∀ (i : Fin 32) (idx : Fin 8),
        idx.val = (if i.val < 24 then i.val % 8 else 7 - (i.val - 24)) →
        n1 (i.val + 1) = n2 i.val ^^^ roundF (n1 i.val) K[idx] S ∧ n2 (i.val + 1) = n1 i.val := by
  let w : Nat → Work := fun n => Nat.rec ⟨a, b⟩ (fun i w => feistelRound S
    (K[(if i < 24 then i % 8 else 7 - (i - 24)) % 8]'(Nat.mod_lt _ (by decide))) w) n
  refine ⟨fun n => (w n).n1, fun n => (w n).n2, rfl, rfl, fun i idx h => ?_⟩
  have hm : (if i.val < 24 then i.val % 8 else 7 - (i.val - 24)) % 8 = idx.val := by
    rw [← h]; exact Nat.mod_eq_of_lt idx.isLt
  simp [w, feistelRound, hm]

/-- A run of the engine itself is a trace for `DECBLK`. -/
theorem witness_decblk_trace (K : Key) (S : Bank) (a b : Word) :
    ∃ n1 n2 : Nat → Word, n1 0 = a ∧ n2 0 = b ∧
      ∀ (i : Fin 32) (idx : Fin 8),
        idx.val = (if i.val < 8 then i.val else 7 - (i.val - 8) % 8) →
        n1 (i.val + 1) = n2 i.val ^^^ roundF (n1 i.val) K[idx] S ∧ n2 (i.val + 1) = n1 i.val := by
  let w : Nat → Work := fun n => Nat.rec ⟨a, b⟩ (fun i w => feistelRound S
    (K[(if i < 8 then i else 7 - (i - 8) % 8) % 8]'(Nat.mod_lt _ (by decide))) w) n
  refine ⟨fun n => (w n).n1, fun n => (w n).n2, rfl, rfl, fun i idx h => ?_⟩
  have hm : (if i.val < 8 then i.val else 7 - (i.val - 8) % 8) % 8 = idx.val := by
    rw [← h]; exact Nat.mod_eq_of_lt idx.isLt
  simp [w, feistelRound, hm]

theorem witness_rotation : 1 ≤ 1 ∧ 31 ≤ 31 ∧ 31 < 32 := by decide

theorem witness_pad :
    (bytes []).length % 8 = 0 ∧ (bytes eight).length % 8 = 0 ∧ (bytes [1]).length % 8 ≠ 0
      ∧ (bytes [1, 2, 3, 4, 5, 6, 7]).length % 8 ≠ 0 := by decide

/-- `ENC` and `DEC`: ready with nine input bytes, first byte of the first group and last byte of the
last group; and each of the two ways not to be ready. -/
theorem witness_cipher_commands :
    (readyWith keyA bankId (eight ++ [9])).keyValid = true
      ∧ (readyWith keyA bankId (eight ++ [9])).sboxValid = true
      ∧ 0 < ((readyWith keyA bankId (eight ++ [9])).ilen + 7) / 8
      ∧ 1 < ((readyWith keyA bankId (eight ++ [9])).ilen + 7) / 8 ∧ 7 < 8
      ∧ State.reset.keyValid = false
      ∧ (State.keyValid { State.reset with keyValid := true } = true
        ∧ State.sboxValid { State.reset with keyValid := true } = false) := by decide

theorem witness_empty_input :
    (readyWith keyA bankId []).keyValid = true ∧ (readyWith keyA bankId []).sboxValid = true
      ∧ (readyWith keyA bankId []).ilen = 0 := by decide

/-- Two equal chunks at positions 1 and 0 of two different inputs, for `ENC` and for `DEC`. -/
theorem witness_equal_chunks :
    ∃ s s' t t' u u' : State, s'.key = s.key ∧ s'.bank = s.bank ∧ s.ready = true
      ∧ s'.ready = true ∧ 1 < (s.ilen + 7) / 8 ∧ 0 < (s'.ilen + 7) / 8
      ∧ exec .enc s = .next t ∧ exec .enc s' = .next t'
      ∧ exec .dec s = .next u ∧ exec .dec s' = .next u'
      ∧ (∀ j, j < 8 → s.encChunk 1 j = s'.encChunk 0 j)
      ∧ (∀ j, j < 8 → s.decChunk 1 j = s'.decChunk 0 j) :=
  ⟨readyWith keyA bankId (List.replicate 8 7 ++ eight), readyWith keyA bankId eight, _, _, _, _,
    by decide +kernel, by decide +kernel, by decide, by decide, by decide, by decide, rfl, rfl, rfl,
    rfl, by decide +kernel, by decide +kernel⟩

theorem witness_concatenation :
    (readyWith keyA bankId (eight ++ [9])).input
        = (readyWith keyA bankId eight).input ++ (readyWith keyA bankId [9]).input
      ∧ (readyWith keyA bankId eight).ilen % 8 = 0
      ∧ (readyWith keyA bankId eight).key = (readyWith keyA bankId (eight ++ [9])).key
      ∧ (readyWith keyA bankId [9]).key = (readyWith keyA bankId (eight ++ [9])).key
      ∧ (readyWith keyA bankId eight).bank = (readyWith keyA bankId (eight ++ [9])).bank
      ∧ (readyWith keyA bankId [9]).bank = (readyWith keyA bankId (eight ++ [9])).bank
      ∧ (readyWith keyA bankId (eight ++ [9])).ready = true
      ∧ (readyWith keyA bankId eight).ready = true
      ∧ (readyWith keyA bankId [9]).ready = true := by decide +kernel

/-- The same three input bytes, more bytes above `ILEN` in the second state. -/
theorem witness_same_input :
    (readyWith keyA bankId [1, 2, 3]).ready = true
      ∧ State.ready { readyWith keyA bankId eight with ilen := 3 } = true
      ∧ State.key { readyWith keyA bankId eight with ilen := 3 }
        = (readyWith keyA bankId [1, 2, 3]).key
      ∧ State.bank { readyWith keyA bankId eight with ilen := 3 }
        = (readyWith keyA bankId [1, 2, 3]).bank
      ∧ State.ilen { readyWith keyA bankId eight with ilen := 3 }
        = (readyWith keyA bankId [1, 2, 3]).ilen
      ∧ ∀ a, a < (readyWith keyA bankId [1, 2, 3]).ilen →
        State.byteAt { readyWith keyA bankId eight with ilen := 3 } .inbuf a
          = (readyWith keyA bankId [1, 2, 3]).byteAt .inbuf a := by decide +kernel

theorem witness_zero_extended :
    (readyWith keyA bankId [1, 2, 3]).ready = true
      ∧ (readyWith keyA bankId [1, 2, 3, 0, 0, 0, 0, 0]).ready = true
      ∧ (readyWith keyA bankId [1, 2, 3, 0, 0, 0, 0, 0]).key
        = (readyWith keyA bankId [1, 2, 3]).key
      ∧ (readyWith keyA bankId [1, 2, 3, 0, 0, 0, 0, 0]).bank
        = (readyWith keyA bankId [1, 2, 3]).bank
      ∧ (readyWith keyA bankId [1, 2, 3, 0, 0, 0, 0, 0]).input
        = (readyWith keyA bankId [1, 2, 3]).input
          ++ List.replicate (8 * (((readyWith keyA bankId [1, 2, 3]).ilen + 7) / 8)
            - (readyWith keyA bankId [1, 2, 3]).ilen) 0 := by decide +kernel

/-- Section 3.5, `ID` and `KA`: the ciphertext of `01 .. 08` as the input of the later `DEC`, and the
plaintext as the input of the later `ENC`. -/
theorem witness_round_trip :
    ∃ s u t : State, s.ready = true ∧ u.ready = true ∧ u.key = s.key ∧ u.bank = s.bank
      ∧ exec .enc s = .next t ∧ u.input = t.result ∧ s.ilen % 8 = 0 :=
  ⟨readyWith keyA bankId eight,
    readyWith keyA bankId [0xB1, 0x9D, 0x12, 0xB2, 0x8A, 0xA6, 0xA0, 0x3F], _, by decide, by decide,
    by decide +kernel, by decide +kernel, rfl, by decide +kernel, by decide⟩

theorem witness_round_trip_back :
    ∃ s u t : State, s.ready = true ∧ u.ready = true ∧ u.key = s.key ∧ u.bank = s.bank
      ∧ exec .dec s = .next t ∧ u.input = t.result ∧ s.ilen % 8 = 0 :=
  ⟨readyWith keyA bankId [0xB1, 0x9D, 0x12, 0xB2, 0x8A, 0xA6, 0xA0, 0x3F],
    readyWith keyA bankId eight, _, by decide, by decide,
    by decide +kernel, by decide +kernel, rfl, by decide +kernel, by decide⟩

/-- Each of the five causes of R102, and success beside it. -/
theorem witness_completion_codes :
    (∃ t, exec .ldkey (setUp keyA [] []) = .next t) ∧ (∃ t, exec .ldkey State.reset = .next t)
      ∧ (∃ t, exec .ldsbox (setUp [] bankId []) = .next t)
      ∧ (∃ t, exec .ldsbox State.reset = .next t)
      ∧ (∃ t, exec .enc (readyWith keyA bankId eight) = .next t)
      ∧ (∃ t, exec .enc State.reset = .next t)
      ∧ (∃ t, exec .dec (readyWith keyA bankId eight) = .next t)
      ∧ (∃ t, exec .dec State.reset = .next t) ∧ ∃ t, runCode 0x05 State.reset = .next t :=
  ⟨⟨_, rfl⟩, ⟨_, rfl⟩, ⟨_, rfl⟩, ⟨_, rfl⟩, ⟨_, rfl⟩, ⟨_, rfl⟩, ⟨_, rfl⟩, ⟨_, rfl⟩, ⟨_, rfl⟩⟩

theorem witness_erring_command : ∃ t, runCode 1 State.reset = .next t ∧ t.err ≠ .ok :=
  ⟨_, rfl, by decide⟩

theorem witness_valid_bits_set :
    (∃ t, step { setUp keyA [] [] with running := some 1 } = .next t
      ∧ (setUp keyA [] []).keyValid = false ∧ t.keyValid = true)
    ∧ ∃ t, step { setUp [] bankId [] with running := some 2 } = .next t
      ∧ (setUp [] bankId []).sboxValid = false ∧ t.sboxValid = true :=
  ⟨⟨_, rfl, rfl, rfl⟩, ⟨_, rfl, rfl, rfl⟩⟩

theorem witness_key_and_bank_change :
    (∃ t, step { setUp keyA [] [] with running := some 1 } = .next t
      ∧ (setUp keyA [] []).schedule.head? ≠ some .reset ∧ t.key ≠ (setUp keyA [] []).key)
    ∧ ∃ t, step { setUp [] bankId [] with running := some 2 } = .next t
      ∧ (setUp [] bankId []).schedule.head? ≠ some .reset
      ∧ t.bank ≠ (setUp [] bankId []).bank :=
  ⟨⟨_, rfl, by decide, by decide +kernel⟩, ⟨_, rfl, by decide, by decide +kernel⟩⟩

theorem witness_inputs_kept :
    ∃ t, exec .enc (readyWith keyA bankId eight) = .next t := ⟨_, rfl⟩

/-- An error, `LDKEY` and `LDSBOX`. -/
theorem witness_output_kept :
    (∃ t, runCode 3 State.reset = .next t ∧ t.err ≠ .ok)
      ∧ (∃ t, runCode 1 (setUp keyA [] []) = .next t ∧ decodeCode 1 = some .ldkey)
      ∧ ∃ t, runCode 2 (setUp [] bankId []) = .next t ∧ decodeCode 2 = some .ldsbox :=
  ⟨⟨_, rfl, by decide⟩, ⟨_, rfl, by decide⟩, ⟨_, rfl, by decide⟩⟩

/-- Spaces that differ above the lengths, and in `SBOXBUF` at address 64, below `SLEN = 65`. -/
theorem witness_bytes_above_length :
    (∃ t, exec .enc { readyWith keyA (bankId ++ [1]) eight with ilen := 3 } = .next t)
      ∧ (∀ a, a < 32 → State.byteAt { setUp keyA (bankId ++ [1]) eight with
          keybuf := space (keyA ++ [7]) } .keybuf a
        = (setUp keyA (bankId ++ [1]) eight).byteAt .keybuf a)
      ∧ (∀ a, a < 65 → a < 64 → State.byteAt { setUp keyA (bankId ++ [1]) eight with
          sboxbuf := space (bankId ++ [2]) } .sboxbuf a
        = (setUp keyA (bankId ++ [1]) eight).byteAt .sboxbuf a)
      ∧ ∀ a, a < 3 → State.byteAt { setUp keyA (bankId ++ [1]) eight with
          inbuf := space [1, 2, 3] } .inbuf a
        = (setUp keyA (bankId ++ [1]) eight).byteAt .inbuf a :=
  ⟨⟨_, rfl⟩, by decide +kernel, by decide +kernel, by decide +kernel⟩

theorem witness_unloaded_registers :
    (∃ t, runCode 1 (setUp keyA [] []) = .next t ∧ (setUp keyA [] []).keyValid = false
        ∧ t.keyValid = true)
      ∧ ∃ t, runCode 2 (setUp [] bankId []) = .next t ∧ (setUp [] bankId []).sboxValid = false
        ∧ t.sboxValid = true :=
  ⟨⟨_, rfl, rfl, rfl⟩, ⟨_, rfl, rfl, rfl⟩⟩

theorem witness_host_access :
    ∃ s t : State, (Event.readReg 1).isHostAccess = true ∧ s.schedule = .readReg 1 :: []
      ∧ step s = .next t :=
  ⟨{ State.reset with schedule := [.readReg 1] }, _, rfl, rfl, rfl⟩

/-- A read of `STATUS` while a command executes, and a read of another register. -/
theorem witness_busy_access :
    (∃ s : State, s.busy = true ∧ s.schedule = .readReg 1 :: []
        ∧ (Event.readReg 1).isHostAccess = true)
      ∧ ∃ s : State, s.busy = true ∧ s.schedule = .readReg 2 :: []
        ∧ (Event.readReg 2).isHostAccess = true :=
  ⟨⟨{ State.reset with running := some 3, schedule := [.readReg 1] }, rfl, rfl, rfl⟩,
    { State.reset with running := some 3, schedule := [.readReg 2] }, rfl, rfl, rfl⟩

/-- A well-formed and an ill-formed move, and a read of `OUTBUF` just below `OLEN`. -/
theorem witness_idle_moves :
    (∃ s : State, s.running = none ∧ s.schedule = .writeReg 4 64 :: []
        ∧ (∀ a, Event.writeReg 4 64 = .readBuf .outbuf a → a < s.olen)
        ∧ (Event.writeReg 4 64).wellFormed = true)
      ∧ (∃ s : State, s.running = none ∧ s.schedule = .readReg 6 :: []
        ∧ (∀ a, Event.readReg 6 = .readBuf .outbuf a → a < s.olen)
        ∧ (Event.readReg 6).wellFormed = false)
      ∧ ∃ s : State, s.running = none ∧ s.schedule = .readBuf .outbuf 7 :: []
        ∧ ∀ a, Event.readBuf .outbuf 7 = .readBuf .outbuf a → a < s.olen :=
  ⟨⟨{ State.reset with schedule := [.writeReg 4 64] }, rfl, rfl, nofun, rfl⟩,
    ⟨{ State.reset with schedule := [.readReg 6] }, rfl, rfl, nofun, rfl⟩,
    ⟨{ State.reset with schedule := [.readBuf .outbuf 7], olen := 8 }, rfl, rfl,
      fun a h => by cases h; decide⟩⟩

theorem witness_register_read :
    ∃ s : State, s.running = none ∧ s.schedule = .readReg 5 :: [] :=
  ⟨{ State.reset with schedule := [.readReg 5] }, rfl, rfl⟩

theorem witness_register_write :
    ∃ s : State, s.running = none ∧ 2 ≠ 0 ∧ s.schedule = .writeReg 2 64 :: []
      ∧ Config.withinLenMax 64 = true :=
  ⟨{ State.reset with schedule := [.writeReg 2 64] }, rfl, by decide, rfl, rfl⟩

theorem witness_buffer_write :
    ∃ s : State, s.running = none ∧ Space.inbuf ≠ .outbuf ∧ Config.withinLenMax (63 + 1) = true
      ∧ s.schedule = .writeBuf .inbuf 63 0xFF :: [] :=
  ⟨{ State.reset with schedule := [.writeBuf .inbuf 63 0xFF] }, rfl, by decide, rfl, rfl⟩

/-- The last address that exists on every machine, `LEN_MAX` being at least 64. -/
theorem witness_input_space_read :
    ∃ s : State, s.running = none ∧ Space.sboxbuf ≠ .outbuf
      ∧ Config.withinLenMax (63 + 1) = true ∧ s.schedule = .readBuf .sboxbuf 63 :: [] :=
  ⟨{ State.reset with schedule := [.readBuf .sboxbuf 63] }, rfl, by decide, rfl, rfl⟩

/-- A host read takes the byte from the space and the address the move names. -/
theorem test_read_takes_the_named_byte :
    (match step { State.reset with
        keybuf := [(4, 0xA1), (5, 0xA2)], sboxbuf := [(4, 0xB1), (5, 0xB2)],
        inbuf := [(4, 0xC1), (5, 0xC2)], schedule := [.readBuf .sboxbuf 5] } with
      | .next t => t.hostRead
      | _ => none) = some 0xB2 := by decide

/-- Just below and at `OLEN`. -/
theorem witness_outbuf_read :
    (∃ s : State, s.running = none ∧ s.schedule = .readBuf .outbuf 7 :: [] ∧ 7 < s.olen)
      ∧ ∃ s : State, s.running = none ∧ s.schedule = .readBuf .outbuf 8 :: [] ∧ ¬ 8 < s.olen :=
  ⟨⟨{ State.reset with schedule := [.readBuf .outbuf 7], olen := 8 }, rfl, rfl, by decide⟩,
    ⟨{ State.reset with schedule := [.readBuf .outbuf 8], olen := 8 }, rfl, rfl, by decide⟩⟩

/-- RESET while a command executes. -/
theorem witness_reset :
    ∃ s : State, s.schedule = .reset :: [] ∧ s.running = some 3 :=
  ⟨{ State.reset with schedule := [.reset], running := some 3 }, rfl, rfl⟩

/-- An empty script, and an engine's turn with host moves behind it. -/
theorem witness_idle_hold :
    (State.reset.running = none ∧ State.reset.schedule = [])
      ∧ ∃ s : State, s.running = none ∧ s.schedule = .engine :: [.reset, .readReg 1] :=
  ⟨⟨rfl, rfl⟩, { State.reset with schedule := .engine :: [.reset, .readReg 1] }, rfl, rfl⟩

/-- The reset state meets the invariant and has a next state. -/
theorem witness_invariant : ∃ s t : State, s = State.reset ∧ step s = .next t :=
  ⟨State.reset, _, rfl, rfl⟩

end Sys2Proof.Tests
end

section
/-! PROOFS. The arms of `exec` and the reset state (R24, R51). -/

namespace Sys2Proof.Machine

/-! ### The command each arm of `exec` runs (R51) -/

@[simp] theorem exec_ldkey (s : State) : exec .ldkey s = execLdkey s := rfl
@[simp] theorem exec_ldsbox (s : State) : exec .ldsbox s = execLdsbox s := rfl
@[simp] theorem exec_enc (s : State) : exec .enc s = execEnc s := rfl
@[simp] theorem exec_dec (s : State) : exec .dec s = execDec s := rfl

/-! ### What the host sees of the reset state (R24) -/

@[simp] theorem reset_status : State.reset.status = 0x00 := rfl
@[simp] theorem reset_klen : State.reset.klen = 0 := rfl
@[simp] theorem reset_slen : State.reset.slen = 0 := rfl
@[simp] theorem reset_ilen : State.reset.ilen = 0 := rfl
@[simp] theorem reset_olen : State.reset.olen = 0 := rfl
@[simp] theorem reset_ready : State.reset.ready = false := rfl

/-- Settles O48: `KLEN = 0` is not 32, `SLEN = 0` is below 64, and no Key and no SubstitutionBank is
loaded, so each command takes its failing branch. -/
theorem resetStateIsAsSpecified : Obligations.ResetStateIsAsSpecified := by
  have hkey : exec .ldkey State.reset = .next (State.reset.raise .invalidKeyLength) := by
    rw [exec_ldkey, execLdkey_of_klen_ne (by simp)]
  have hbank : exec .ldsbox State.reset = .next (State.reset.raise .invalidSBoxLength) := by
    rw [exec_ldsbox, execLdsbox_of_slen_lt (by simp)]
  have henc : exec .enc State.reset = .next (State.reset.raise .notReady) := by
    rw [exec_enc, execEnc_of_not_ready reset_ready]
  have hdec : exec .dec State.reset = .next (State.reset.raise .notReady) := by
    rw [exec_dec, execDec_of_not_ready reset_ready]
  exact ⟨reset_status, reset_klen, reset_slen, reset_ilen, reset_olen, ⟨_, hkey, raise_err _ _⟩,
    ⟨_, hbank, raise_err _ _⟩, ⟨_, henc, raise_err _ _⟩, ⟨_, hdec, raise_err _ _⟩⟩

end Sys2Proof.Machine
end

section
/-! PROOFS. The engine does not write what the host owns: the input spaces and their length registers
(R17, R34). -/

namespace Sys2Proof.Machine

/-- Settles O36, by the seven ends of a command: `LDKEY` writes `K`, `LDSBOX` writes `S`, `ENC` and
`DEC` deliver the output, and each of them can `raise` instead. By the laws of `complete`, `deliver`
and `raise`, none of these ends writes a field of the host. -/
theorem commandsNeverWriteInputSpacesOrLengths :
    Obligations.CommandsNeverWriteInputSpacesOrLengths := by
  intro i s t h
  obtain ⟨-, -, rfl⟩ | ⟨-, -, rfl⟩ | ⟨-, -, rfl⟩ | ⟨-, -, rfl⟩ | ⟨-, -, rfl⟩ | ⟨-, -, rfl⟩
    | ⟨-, -, rfl⟩ := exec_cases h
  all_goals simp

end Sys2Proof.Machine
end

section
/-! PROOFS. The codes of the commands, and what a reserved code does (R51, R53). -/

namespace Sys2Proof

/-- R51: a code decodes to a command exactly when it is that command's code. -/
theorem decode_cons_eq_ok_iff (code : Byte) (rest : List Byte) (i : Instr) :
    decode (code :: rest) = .ok (i, rest) ↔ code = encodeCode i := by
  rw [← Machine.decodeCode_eq_some_iff]
  cases h : decodeCode code <;> simp [decode, h]

theorem decode_cons_of_decodeCode_eq_none {code : Byte} (h : decodeCode code = none)
    (rest : List Byte) : decode (code :: rest) = .error (.illegalCommand code) := by
  simp [decode, h]

/-- R53: `0x00` and the codes from `0x05` on select no command. -/
theorem decodeCode_eq_none_of_reserved {code : Byte} (h : code = 0x00 ∨ 0x05 ≤ code.toNat) :
    decodeCode code = none := by
  rw [Machine.decodeCode_eq_none_iff]
  rcases h with rfl | h
  · decide
  · refine ⟨?_, ?_, ?_, ?_⟩ <;> rintro rfl <;> exact absurd h (by decide)

namespace Machine

/-! ### The moves of a command: its write to `CMD` and the engine's turn -/

/-- A step with a script is the first move of the script. -/
theorem step_of_schedule_cons {s : State} {e : Event} {rest : List Event}
    (h : s.schedule = e :: rest) : step s = move e { s with schedule := rest } := by
  simp [step, nextMove, h]

theorem whenIdle_of_idle {s : State} (h : s.running = none)
    (act : Host.Outcome State Fault Refusal) : s.whenIdle act = act := by
  simp [State.whenIdle, State.busy, h]

/-- R15: a byte written to `CMD` starts the command of that code. -/
theorem writeRegister_cmd (s : State) (code : Byte) :
    s.writeRegister 0 code.toNat = .next { s with running := some code } := by
  simp [State.writeRegister, code.isLt]

theorem engineTurn_of_running {s : State} {code : Byte} (h : s.running = some code) :
    engineTurn s = runCode code s := by
  simp [engineTurn, h]

theorem runCode_of_decodeCode_eq_none {code : Byte} (h : decodeCode code = none) (s : State) :
    runCode code s = .next (s.raise .illegalCommand) := by
  simp [runCode, h]

/-- R103: `IllegalCommand` clears neither valid bit. -/
theorem raise_illegalCommand (s : State) :
    s.raise .illegalCommand = { s with err := .illegalCommand, running := none } := rfl

/-- The step in which the host starts a command on the idle engine (R15). -/
theorem step_of_command_write {s : State} {code : Byte} {rest : List Event}
    (hidle : s.running = none) (hs : s.schedule = .writeReg 0 code.toNat :: rest) :
    step s = .next { s with schedule := rest, running := some code } := by
  rw [step_of_schedule_cons hs]
  exact (whenIdle_of_idle hidle _).trans (writeRegister_cmd _ code)

/-- The step in which the engine ends the executing command (R119). -/
theorem step_of_engine_turn {s : State} {code : Byte} {rest : List Event}
    (hrun : s.running = some code) (hs : s.schedule = .engine :: rest) :
    step s = runCode code { s with schedule := rest } := by
  rw [step_of_schedule_cons hs]
  exact engineTurn_of_running hrun

end Machine

/-- Settles O1: the codes the decoder maps to a command are the encoder's one code of it. -/
theorem commandCodesAreThoseOfTheOpcodeMap : Obligations.CommandCodesAreThoseOfTheOpcodeMap :=
  fun code rest =>
    ⟨decode_cons_eq_ok_iff code rest .ldkey, decode_cons_eq_ok_iff code rest .ldsbox,
      decode_cons_eq_ok_iff code rest .enc, decode_cons_eq_ok_iff code rest .dec⟩

/-- Settles O3: the write starts the code as a command, and since the code selects none, the engine's
turn raises `IllegalCommand`. -/
theorem reservedCodeOnlyRaisesIllegalCommand : Obligations.ReservedCodeOnlyRaisesIllegalCommand := by
  intro code hreserved
  have hnone : decodeCode code = none := decodeCode_eq_none_of_reserved hreserved
  refine ⟨decode_cons_of_decodeCode_eq_none hnone, fun s rest hidle hs => ?_⟩
  refine ⟨_, Machine.step_of_command_write hidle hs, ?_⟩
  rw [Machine.step_of_engine_turn rfl rfl, Machine.runCode_of_decodeCode_eq_none hnone,
    Machine.raise_illegalCommand]

end Sys2Proof
end

section
/-! PROOFS. The load commands (R60, R61): what a key word and a bank entry are as numbers, and what
`LDKEY` and `LDSBOX` do to a state. -/

namespace Sys2Proof.Machine

/-! ### The operands as numbers -/

/-- A byte written above `m` bits counts `2 ^ m` times its value. -/
theorem toNat_append_eq_add {n m : Nat} (x : BitVec n) (y : BitVec m) :
    (x ++ y).toNat = 2 ^ m * x.toNat + y.toNat := by
  rw [BitVec.toNat_append, ← Nat.shiftLeft_add_eq_or_of_lt y.isLt, Nat.shiftLeft_eq, Nat.mul_comm]

/-- R8: `LE32` as a number. -/
theorem le32_toNat (b0 b1 b2 b3 : Byte) :
    (le32 b0 b1 b2 b3).toNat
      = b0.toNat + 2 ^ 8 * b1.toNat + 2 ^ 16 * b2.toNat + 2 ^ 24 * b3.toNat := by
  simp only [le32, toNat_append_eq_add]
  omega

theorem keyOperand_getElem (s : State) (i : Fin 8) : s.keyOperand[i] = s.keyWord i.val := by
  simp [State.keyOperand]

theorem bankOperand_getElem (s : State) (i : Fin 8) (v : Fin 16) :
    s.bankOperand[i][v] = s.bankEntry i.val v.val := by
  simp [State.bankOperand]

/-- R61: the even entry of a pair is the low nibble of its byte. -/
theorem bankEntry_even (s : State) (i j : Nat) :
    s.bankEntry i (2 * j) = lowNibble (s.byteAt .sboxbuf (8 * i + j)) := by
  simp [State.bankEntry]

/-- R61: the odd entry of a pair is the high nibble of its byte. -/
theorem bankEntry_odd (s : State) (i j : Nat) :
    s.bankEntry i (2 * j + 1) = highNibble (s.byteAt .sboxbuf (8 * i + j)) := by
  simp [State.bankEntry, show (2 * j + 1) / 2 = j by omega]

/-! ### The errors of the load commands (R103) -/

theorem raise_invalidKeyLength (s : State) :
    s.raise .invalidKeyLength
      = { s with keyValid := false, err := .invalidKeyLength, running := none } := rfl

theorem raise_invalidSBoxLength (s : State) :
    s.raise .invalidSBoxLength
      = { s with sboxValid := false, err := .invalidSBoxLength, running := none } := rfl

/-- Settles O10: with `KLEN = 32` the command completes with the key of the buffer, whose words are
`LE32` of four bytes each; otherwise it raises `InvalidKeyLength`. -/
theorem ldkeyLoadsEightLittleEndianWords : Obligations.LdkeyLoadsEightLittleEndianWords := by
  refine fun s => ⟨fun hlen => ⟨_, execLdkey_of_klen hlen, rfl, fun i => ?_⟩, fun hlen => ?_⟩
  · rw [complete_key, keyOperand_getElem]
    exact le32_toNat _ _ _ _
  · rw [exec_ldkey, execLdkey_of_klen_ne hlen, raise_invalidKeyLength]

/-- Settles O11: with `SLEN ≥ 64` the command completes with the bank of the buffer, whose entries
`2j` and `2j + 1` are the two nibbles of byte `j` of their table; otherwise it raises
`InvalidSBoxLength`. -/
theorem ldsboxUnpacksEightTables : Obligations.LdsboxUnpacksEightTables := by
  refine fun s => ⟨fun hlen => ⟨_, execLdsbox_of_slen hlen, rfl, fun i j lo hi hlo hhi => ⟨?_, ?_⟩⟩,
    fun hlen => ?_⟩
  · rw [complete_bank, bankOperand_getElem, hlo, bankEntry_even, lowNibble_toNat]
  · rw [complete_bank, bankOperand_getElem, hhi, bankEntry_odd, highNibble_toNat]
  · rw [exec_ldsbox, execLdsbox_of_slen_lt hlen, raise_invalidSBoxLength]

end Sys2Proof.Machine
end

section
/-! PROOFS. The round function as numbers and bits (R70). -/

namespace Sys2Proof.Machine

/-- R70's `S[i][v]`: the nibble `x` selects the entry whose number it is. -/
theorem entry_of_toNat_eq (S : Bank) (i : Fin 8) {x : Nibble} {v : Fin 16} (h : x.toNat = v.val) :
    Bank.entry S i x = S[i][v] := by
  obtain rfl : v = x.toFin := Fin.ext h.symm
  rfl

/-- R70: nibble `i` of the substituted value, as a number, is the entry of table `i` that nibble `i`
of the argument selects. -/
theorem substitute_nibble_toNat {S : Bank} {temp : Word} {i : Fin 8} {v : Fin 16}
    (h : temp.toNat / 16 ^ i.val % 16 = v.val) :
    (substitute S temp).toNat / 16 ^ i.val % 16 = S[i][v].toNat := by
  rw [← nibbleAt_toNat] at h
  rw [← nibbleAt_toNat, substitute_nibble, entry_of_toNat_eq S i h]

/-- Settles O14: the value to rotate is `substitute S (n + k)`; its nibbles are table entries, the sum
of the words being the sum modulo 2^32, and `F` is its rotation by 11. -/
theorem roundFunctionAddsSubstitutesRotates : Obligations.RoundFunctionAddsSubstitutesRotates := by
  refine fun n k S => ⟨substitute S (n + k), fun i v hv => ?_, fun b hb => rotl32_bit hb⟩
  rw [← BitVec.toNat_add] at hv
  exact substitute_nibble_toNat hv

end Sys2Proof.Machine
end

section
/-! PROOFS. The Feistel engine: the key-index tables (R76, R77), a block as 32 rounds (R78, R79),
and the inversion of a block (R83). -/

namespace Sys2Proof.Machine

/-! ### The rounds of a list of subkey indices (R82) -/

@[simp] theorem runRounds_nil (K : Key) (S : Bank) (w : Work) : runRounds K S [] w = w := rfl

@[simp] theorem runRounds_cons (K : Key) (S : Bank) (i : Fin 8) (order : List (Fin 8)) (w : Work) :
    runRounds K S (i :: order) w = runRounds K S order (feistelRound S K[i] w) := rfl

theorem runRounds_append (K : Key) (S : Bank) (order₁ order₂ : List (Fin 8)) (w : Work) :
    runRounds K S (order₁ ++ order₂) w = runRounds K S order₂ (runRounds K S order₁ w) :=
  List.foldl_append

/-- A sequence of working pairs in which round `i` uses the subkey at place `i` of the order ends in
the pair the rounds of the order compute. -/
theorem runRounds_of_trace (K : Key) (S : Bank) (order : List (Fin 8)) (w : Nat → Work)
    (hw : ∀ i (hi : i < order.length), w (i + 1) = feistelRound S K[order[i]] (w i)) :
    runRounds K S order (w 0) = w order.length := by
  induction order generalizing w with
  | nil => rfl
  | cons k order ih =>
    have hfirst : w 1 = feistelRound S K[k] (w 0) := hw 0 (Nat.zero_lt_succ _)
    rw [runRounds_cons, ← hfirst]
    exact ih (fun i => w (i + 1)) fun i hi => hw (i + 1) (Nat.succ_lt_succ hi)

/-! ### A block as a trace of 32 rounds -/

/-- Settles O17, by the 32 entries of each table. -/
theorem keyIndexTablesFollowTheFormulas : Obligations.KeyIndexTablesFollowTheFormulas := by
  refine ⟨rfl, rfl, ?_, ?_⟩
  · decide
  · decide

/-- R78 and R79, for any order of 32 subkeys given by a formula: the block is the exit pair of every
trace whose round `i` uses the subkey of the formula at `i`. -/
theorem cipherBlock_of_trace {K : Key} {S : Bank} {order : List (Fin 8)} {keyIndex : Fin 32 → Nat}
    {n1 n2 : Nat → Word} (hlen : order.length = 32)
    (hindex : ∀ i : Fin 32, (order[i.val]?).map Fin.val = some (keyIndex i))
    (htrace : ∀ (i : Fin 32) (idx : Fin 8), idx.val = keyIndex i →
      n1 (i.val + 1) = n2 i.val ^^^ roundF (n1 i.val) K[idx] S ∧ n2 (i.val + 1) = n1 i.val) :
    cipherBlock K S order ⟨n1 0, n2 0⟩ = ⟨n2 32, n1 32⟩ := by
  have hrun : runRounds K S order ⟨n1 0, n2 0⟩ = ⟨n1 order.length, n2 order.length⟩ := by
    refine runRounds_of_trace K S order (fun i => ⟨n1 i, n2 i⟩) fun i hi => ?_
    have hkey : (order[i]).val = keyIndex ⟨i, hlen ▸ hi⟩ := by
      simpa [hi] using hindex ⟨i, hlen ▸ hi⟩
    obtain ⟨h1, h2⟩ := htrace ⟨i, hlen ▸ hi⟩ order[i] hkey
    exact congrArg₂ Work.mk h1 h2
  rw [hlen] at hrun
  simp [cipherBlock, hrun]

/-- Settles O19: the encryption table is an order of 32 subkeys that follows the formula of R76. -/
theorem encblkIsThirtyTwoRounds : Obligations.EncblkIsThirtyTwoRounds := by
  rintro K S _ _ n1 n2 rfl rfl htrace
  obtain ⟨hlen, -, hindex, -⟩ := keyIndexTablesFollowTheFormulas
  exact cipherBlock_of_trace hlen hindex htrace

/-- Settles O20: the decryption table is an order of 32 subkeys that follows the formula of R77. -/
theorem decblkIsThirtyTwoRounds : Obligations.DecblkIsThirtyTwoRounds := by
  rintro K S _ _ n1 n2 rfl rfl htrace
  obtain ⟨-, hlen, -, hindex⟩ := keyIndexTablesFollowTheFormulas
  exact cipherBlock_of_trace hlen hindex htrace

/-! ### The inversion of a block -/

/-- The exchange of the halves, `X` in R83: the exit compensation of a block. -/
def Work.swap (w : Work) : Work := ⟨w.n2, w.n1⟩

/-- R83's collapse of a round, the exchange and the same round to the exchange: the xor with the
value of `F` cancels, whatever `F` is. -/
theorem feistelRound_swap_feistelRound (S : Bank) (k : Word) (w : Work) :
    feistelRound S k (feistelRound S k w).swap = w.swap := by
  simp [feistelRound, Work.swap]

/-- The collapse repeated from the last round to the first. -/
theorem runRounds_reverse_swap_runRounds (K : Key) (S : Bank) (order : List (Fin 8)) (w : Work) :
    runRounds K S order.reverse (runRounds K S order w).swap = w.swap := by
  induction order generalizing w with
  | nil => rfl
  | cons i order ih =>
    rw [List.reverse_cons, runRounds_append, runRounds_cons K S i order, ih, runRounds_cons,
      runRounds_nil, feistelRound_swap_feistelRound]

/-- A block under an order of subkeys is undone by the block under the reversed order: what the
exchange leaves of the rounds is undone by the second exit compensation. -/
theorem cipherBlock_reverse_cipherBlock (K : Key) (S : Bank) (order : List (Fin 8)) (blk : Block) :
    cipherBlock K S order.reverse (cipherBlock K S order blk) = blk := by
  have hback := runRounds_reverse_swap_runRounds K S order ⟨blk.first, blk.second⟩
  simp only [Work.swap] at hback
  simp [cipherBlock, hback]

/-- R81: the decryption order is the encryption order reversed. -/
theorem reverse_kidxEnc : kidxEnc.reverse = kidxDec := rfl

theorem reverse_kidxDec : kidxDec.reverse = kidxEnc := by
  rw [← reverse_kidxEnc, List.reverse_reverse]

/-- Settles O21: each of the two key orders is the reverse of the other. -/
theorem decblkAndEncblkInvertEachOther : Obligations.DecblkAndEncblkInvertEachOther := by
  refine fun K S blk => ⟨?_, ?_⟩
  · rw [encBlk, decBlk, ← reverse_kidxEnc]
    exact cipherBlock_reverse_cipherBlock K S kidxEnc blk
  · rw [encBlk, decBlk, ← reverse_kidxDec]
    exact cipherBlock_reverse_cipherBlock K S kidxDec blk

end Sys2Proof.Machine
end

section
/-! PROOFS. The block processor: padding (R85), the filled input and its chunks (R86, R90), and what
`ENC` and `DEC` deliver (R88, R89, R94). -/

namespace Sys2Proof.Machine

/-! ### Padding (R85) -/

theorem fillCount_of_aligned {L : Nat} (h : L % 8 = 0) : fillCount L = 0 := if_pos h

theorem fillCount_of_not_aligned {L : Nat} (h : L % 8 ≠ 0) : fillCount L = 8 - L % 8 := if_neg h

theorem pad_of_aligned {bs : List Byte} (h : bs.length % 8 = 0) : pad bs = bs := by
  simp [pad, fillCount_of_aligned h]

theorem pad_of_not_aligned {bs : List Byte} (h : bs.length % 8 ≠ 0) :
    pad bs = bs ++ List.replicate (8 - bs.length % 8) (BitVec.ofNat 8 (8 - bs.length % 8)) := by
  rw [pad, fillCount_of_not_aligned h]

theorem pad_pad (bs : List Byte) : pad (pad bs) = pad bs :=
  pad_of_aligned (by rw [pad_length, Nat.mul_mod_right])

/-- Settles O22: the pad count is 0 or `8 - (L mod 8)`, and a padded sequence is aligned. -/
theorem padFillsToAMultipleOfEight : Obligations.PadFillsToAMultipleOfEight :=
  fun bs => ⟨pad_of_aligned, pad_of_not_aligned, pad_length bs, pad_pad bs⟩

/-! ### The filled input, byte by byte and block by block -/

@[simp] theorem input_length (s : State) : s.input.length = s.ilen := memRead_length s .inbuf 0 s.ilen

/-- The input filled with `v` to a multiple of 8: an input byte below `ILEN`, `v` from there on. -/
theorem filledInput_getElem? (s : State) (v : Byte) {a : Nat} (ha : a < 8 * ((s.ilen + 7) / 8)) :
    (s.input ++ List.replicate (fillCount s.ilen) v)[a]?
      = some (if a < s.ilen then s.byteAt .inbuf a else v) := by
  split
  · next hin =>
    rw [List.getElem?_append_left (by rwa [input_length]), State.input, memRead_getElem?]
    simp [hin]
  · next hout =>
    have hfill : a - s.ilen < fillCount s.ilen := by
      have := fillCount_add s.ilen
      omega
    rw [List.getElem?_append_right (by rw [input_length]; omega), input_length]
    simp [hfill]

theorem padInput_getElem? (s : State) {blk j : Nat} (hblk : blk < (s.ilen + 7) / 8) (hj : j < 8) :
    (pad s.input)[8 * blk + j]? = some (s.encChunk blk j) := by
  rw [pad, input_length, filledInput_getElem? s _ (by omega), State.encChunk]
  split
  · rfl
  · next hout => rw [fillCount_of_not_aligned (by omega)]

theorem zeroFillInput_getElem? (s : State) {blk j : Nat} (hblk : blk < (s.ilen + 7) / 8)
    (hj : j < 8) : (zeroFill s.input)[8 * blk + j]? = some (s.decChunk blk j) := by
  rw [zeroFill, input_length, filledInput_getElem? s _ (by omega), State.decChunk]

theorem encPairs_length (s : State) : (encPairs s).length = (s.ilen + 7) / 8 := by
  rw [encPairs, List.length_map, blocksOf_length (pad_length s.input), input_length]

theorem decPairs_length (s : State) : (decPairs s).length = (s.ilen + 7) / 8 := by
  rw [decPairs, List.length_map, blocksOf_length (zeroFill_length s.input), input_length]

/-- R88: returned pair `blk` of `ENC` is `ENCBLK` of chunk `blk` of the padded input. -/
theorem encPairs_getElem? (s : State) {blk : Nat} (hblk : blk < (s.ilen + 7) / 8) :
    (encPairs s)[blk]? = some (encBlk s.key s.bank (chunkBlock (s.encChunk blk))) := by
  have hlen : (pad s.input).length = 8 * ((s.ilen + 7) / 8) := by rw [pad_length, input_length]
  rw [encPairs, List.getElem?_map,
    blocksOf_getElem? hlen hblk fun _ hj => padInput_getElem? s hblk hj, Option.map_some]

/-- R89: returned pair `blk` of `DEC` is `DECBLK` of chunk `blk` of the zero-filled input. -/
theorem decPairs_getElem? (s : State) {blk : Nat} (hblk : blk < (s.ilen + 7) / 8) :
    (decPairs s)[blk]? = some (decBlk s.key s.bank (chunkBlock (s.decChunk blk))) := by
  have hlen : (zeroFill s.input).length = 8 * ((s.ilen + 7) / 8) := by
    rw [zeroFill_length, input_length]
  rw [decPairs, List.getElem?_map,
    blocksOf_getElem? hlen hblk fun _ hj => zeroFillInput_getElem? s hblk hj, Option.map_some]

/-! ### The two ends of `ENC` and `DEC` -/

theorem ready_of_valid {s : State} (hkey : s.keyValid = true) (hbank : s.sboxValid = true) :
    s.ready = true := by
  rw [State.ready, hkey, hbank, Bool.and_self]

theorem not_ready_of_not_valid {s : State} (h : s.keyValid = false ∨ s.sboxValid = false) :
    s.ready = false := Bool.and_eq_false_iff.mpr h

/-- R103: `NotReady` clears neither valid bit. -/
theorem raise_notReady (s : State) :
    s.raise .notReady = { s with err := .notReady, running := none } := rfl

/-- The frame of a successful `ENC` or `DEC`: the output, the completion and the transient registers
(R12, R16) are written and nothing else. -/
theorem complete_deliver_frame (s : State) {rs : List Block} {n : Nat} (hlen : rs.length = n) :
    (s.deliver rs).complete = { s with
      outbuf := (s.deliver rs).complete.outbuf, olen := 8 * n, err := .ok, running := none,
      work := (s.deliver rs).complete.work, seq := (s.deliver rs).complete.seq,
      draws := (s.deliver rs).complete.draws } := by
  subst hlen
  rfl

/-- R87: byte `j` of returned pair `blk` stands in `OUTBUF` at `8*blk + j`. -/
theorem read_deliver_outbuf (s : State) {rs : List Block} {blk j : Nat} {r : Block}
    (hr : rs[blk]? = some r) (hj : j < 8) :
    Memory.read (s.deliver rs).outbuf (8 * blk + j) = r.bytes[j]? := by
  have hread := Memory.read_ofBytesFrom 0 (8 * blk + j) (rs.flatMap Block.bytes)
  rw [Nat.zero_add] at hread
  rw [deliver_outbuf, hread, flatMap_bytes_getElem? hr hj]

/-- Settles O23: a ready `ENC` delivers the `ENCBLK` pairs of the chunks of the padded input, and
without a Key or a bank it raises `NotReady`. -/
theorem encStoresEncryptedChunks : Obligations.EncStoresEncryptedChunks := by
  refine fun s => ⟨fun hkey hbank => ?_, fun hinvalid => ?_⟩
  · refine ⟨_, execEnc_of_ready (ready_of_valid hkey hbank),
      complete_deliver_frame s (encPairs_length s), fun blk hblk j hj => ?_⟩
    exact read_deliver_outbuf s (encPairs_getElem? s hblk) hj
  · rw [exec_enc, execEnc_of_not_ready (not_ready_of_not_valid hinvalid), raise_notReady]

/-- Settles O24: a ready `DEC` delivers the `DECBLK` pairs of the chunks of the zero-filled input,
and without a Key or a bank it raises `NotReady`. -/
theorem decStoresDecryptedChunks : Obligations.DecStoresDecryptedChunks := by
  refine fun s => ⟨fun hkey hbank => ?_, fun hinvalid => ?_⟩
  · refine ⟨_, execDec_of_ready (ready_of_valid hkey hbank),
      complete_deliver_frame s (decPairs_length s), fun blk hblk j hj => ?_⟩
    exact read_deliver_outbuf s (decPairs_getElem? s hblk) hj
  · rw [exec_dec, execDec_of_not_ready (not_ready_of_not_valid hinvalid), raise_notReady]

/-! ### The output is a function of the key, the bank and the input (R94) -/

theorem input_congr {s s' : State} (hlen : s'.ilen = s.ilen)
    (hbytes : ∀ a, a < s.ilen → s'.byteAt .inbuf a = s.byteAt .inbuf a) :
    s'.input = s.input := by
  rw [State.input, State.input, hlen]
  refine List.map_congr_left fun a ha => ?_
  rw [Nat.zero_add]
  exact hbytes a (List.mem_range.mp ha)

theorem encPairs_congr {s s' : State} (hkey : s'.key = s.key) (hbank : s'.bank = s.bank)
    (hinput : s'.input = s.input) : encPairs s' = encPairs s := by
  rw [encPairs, encPairs, hkey, hbank, hinput]

theorem decPairs_congr {s s' : State} (hkey : s'.key = s.key) (hbank : s'.bank = s.bank)
    (hinput : s'.input = s.input) : decPairs s' = decPairs s := by
  rw [decPairs, decPairs, hkey, hbank, hinput]

/-- Settles O28: equal inputs under the same key and bank give the same returned pairs, and `OLEN`
and `OUTBUF` are functions of these. -/
theorem sameInputGivesSameOutput : Obligations.SameInputGivesSameOutput := by
  intro i s s' hi hready hready' hkey hbank hlen hbytes
  have hinput : s'.input = s.input := input_congr hlen hbytes
  rcases hi with rfl | rfl
  · refine ⟨_, _, execEnc_of_ready hready, execEnc_of_ready hready', ?_, fun a _ => ?_⟩
    all_goals simp [encPairs_congr hkey hbank hinput]
  · refine ⟨_, _, execDec_of_ready hready, execDec_of_ready hready', ?_, fun a _ => ?_⟩
    all_goals simp [decPairs_congr hkey hbank hinput]

end Sys2Proof.Machine
end

section
/-! PROOFS. The completion code of a command, by cause (R101, R102), and the frame of an erring
command (R103). -/

namespace Sys2Proof.Machine

/-! ### The completion code, by cause (R101, R102) -/

/-- The completion code with which a command ends (R102), the cause of the error tested first. -/
def commandErr (s : State) : Instr → ErrCode
  | .ldkey => if s.klen ≠ 32 then .invalidKeyLength else .ok
  | .ldsbox => if s.slen < 64 then .invalidSBoxLength else .ok
  | .enc | .dec => if s.keyValid = false ∨ s.sboxValid = false then .notReady else .ok

theorem ready_eq_false_iff {s : State} :
    s.ready = false ↔ s.keyValid = false ∨ s.sboxValid = false := Bool.and_eq_false_iff

/-- The code a command leaves in `ERR`, by the seven ends of a command: each comes with the outcome
of the test that `commandErr` makes. -/
theorem err_of_exec {i : Instr} {s t : State} (h : exec i s = .next t) : t.err = commandErr s i := by
  obtain ⟨rfl, hlen, rfl⟩ | ⟨rfl, hlen, rfl⟩ | ⟨rfl, hlen, rfl⟩ | ⟨rfl, hlen, rfl⟩
    | ⟨rfl, hready, rfl⟩ | ⟨rfl, hready, rfl⟩ | ⟨rfl | rfl, hready, rfl⟩ := exec_cases h
  · exact (if_neg (not_not_intro hlen)).symm
  · exact (if_pos hlen).symm
  · exact (if_neg (Nat.not_lt.mpr hlen)).symm
  · exact (if_pos hlen).symm
  · exact (if_neg (by simp [← ready_eq_false_iff, hready])).symm
  · exact (if_neg (by simp [← ready_eq_false_iff, hready])).symm
  · exact (if_pos (ready_eq_false_iff.mp hready)).symm
  · exact (if_pos (ready_eq_false_iff.mp hready)).symm

/-- The number of a completion code that one cause decides; that of `OK` is 0 (R101). -/
theorem code_toNat_of_eq_ite {c : Prop} [Decidable c] {e e' : ErrCode}
    (h : e' = if c then e else .ok) : e'.code.toNat = if c then e.code.toNat else 0 := by
  rw [h]
  exact apply_ite (fun e : ErrCode => e.code.toNat) c e .ok

/-- Settles O32: `ERR` is the code that `commandErr` gives to the cause, and after a reserved code it
is that of `IllegalCommand`. -/
theorem completionCodesByCause : Obligations.CompletionCodesByCause := by
  refine fun s t code => ⟨fun h => code_toNat_of_eq_ite (err_of_exec h),
    fun h => code_toNat_of_eq_ite (err_of_exec h), fun h => code_toNat_of_eq_ite (err_of_exec h),
    fun h => code_toNat_of_eq_ite (err_of_exec h), fun hreserved h => ?_⟩
  rw [runCode_of_decodeCode_eq_none (decodeCode_eq_none_of_reserved hreserved)] at h
  cases h
  rfl

/-! ### The frame of an erring command (R103) -/

/-- R103, what `raise` writes: `ERR`, `BUSY`, and the valid bit of a failed load. -/
theorem raise_eq (s : State) (e : ErrCode) :
    s.raise e = { s with
      err := e, running := none
      keyValid := if e = .invalidKeyLength then false else s.keyValid
      sboxValid := if e = .invalidSBoxLength then false else s.sboxValid } := by
  cases e <;> rfl

/-- A command that ends with an error has only raised it: its other ends are completions. -/
theorem eq_raise_of_exec {i : Instr} {s t : State} (h : exec i s = .next t) (herr : t.err ≠ .ok) :
    t = s.raise t.err := by
  obtain ⟨-, -, rfl⟩ | ⟨-, -, rfl⟩ | ⟨-, -, rfl⟩ | ⟨-, -, rfl⟩ | ⟨-, -, rfl⟩ | ⟨-, -, rfl⟩
    | ⟨-, -, rfl⟩ := exec_cases h
  · exact absurd (complete_err _) herr
  · rw [raise_err]
  · exact absurd (complete_err _) herr
  · rw [raise_err]
  · exact absurd (complete_err _) herr
  · exact absurd (complete_err _) herr
  · rw [raise_err]

theorem eq_raise_of_runCode {code : Byte} {s t : State} (h : runCode code s = .next t)
    (herr : t.err ≠ .ok) : t = s.raise t.err := by
  obtain ⟨i, -, hexec⟩ | ⟨-, rfl⟩ := runCode_cases h
  · exact eq_raise_of_exec hexec herr
  · rw [raise_err]

/-- Settles O33: an erring command, of a reserved code too, has only raised its error. -/
theorem erringCommandWritesOnlyWhatRaiseLists :
    Obligations.ErringCommandWritesOnlyWhatRaiseLists := by
  intro code s t h herr
  exact (eq_raise_of_runCode h herr).trans (raise_eq s t.err)

end Sys2Proof.Machine
end

section
/-! PROOFS. The invariant of the machine (R14, R17, R23, R42, R102): it holds after reset, and every
operation a step is made of keeps it. -/

namespace Sys2Proof.Machine

/-! ### The bounds on the lengths (R5, R18) -/

/-- `withinLenMax` is the comparison with `LEN_MAX`, where there is one. -/
theorem le_of_withinLenMax {v m : Nat} (hv : Config.withinLenMax v = true)
    (hm : Config.lenMax = some m) : v ≤ m := by
  unfold Config.lenMax at hm
  cases habove : Config.lenMaxAbove64 with
  | none => simp [habove] at hm
  | some extra =>
    simp [habove] at hm
    simp [Config.withinLenMax, habove] at hv
    omega

/-- Settles O51: the spaces are empty, the lengths 0, and `ERR = 0`. -/
theorem resetStateMeetsInv : Obligations.ResetStateMeetsInv where
  keybufWf := List.Pairwise.nil
  sboxbufWf := List.Pairwise.nil
  inbufWf := List.Pairwise.nil
  outbufWf := List.Pairwise.nil
  outbufExact := rfl
  olenAligned := rfl
  klenBound := rfl
  slenBound := rfl
  ilenBound := rfl
  olenBound := fun _ _ => Nat.zero_le _
  errKey := nofun
  errBank := nofun
  errNotReady := nofun

/-! ### What the shared operations keep of it -/

theorem State.Inv.withSchedule {s : State} (h : s.Inv) (rest : List Event) :
    State.Inv { s with schedule := rest } := { h with }

theorem State.Inv.returnToHost {s : State} (h : s.Inv) (v : Nat) : (s.returnToHost v).Inv :=
  { h with }

theorem State.inv_resetSignal (s : State) : s.resetSignal.Inv := { resetStateMeetsInv with }

/-- R103: `raise` clears the valid bit that its completion code speaks of; `NotReady` is raised
only where a valid bit is 0 already. -/
theorem State.Inv.raise {s : State} (h : s.Inv) {e : ErrCode}
    (hready : e = .notReady → s.ready = false) : (s.raise e).Inv :=
  { h with
    errKey := fun he => by rw [raise_err] at he; simp [raise_keyValid, he]
    errBank := fun he => by rw [raise_err] at he; simp [raise_sboxValid, he]
    errNotReady := fun he => by
      rw [raise_err] at he
      subst he
      exact hready rfl }

/-- A load writes registers and valid bits, which the invariant ties to an error only. -/
theorem State.Inv.completeLoad {s : State} (h : s.Inv) (K : Key) (S : Bank) (kv sv : Bool) :
    (State.complete { s with key := K, bank := S, keyValid := kv, sboxValid := sv }).Inv :=
  { h with
    errKey := nofun
    errBank := nofun
    errNotReady := nofun }

/-- R42: the delivered output fills `OUTBUF[0 .. OLEN)`, and `OLEN` is the input's length rounded up
to a multiple of 8. -/
theorem State.Inv.completeDeliver {s : State} (h : s.Inv) {rs : List Block}
    (hlen : rs.length = (s.ilen + 7) / 8) : (s.deliver rs).complete.Inv :=
  { h with
    outbufWf := Memory.ofBytesFrom_wf _ _
    outbufExact := by
      rw [complete_outbuf, complete_olen, deliver_outbuf, deliver_olen,
        Memory.ofBytesFrom_addresses, flatMap_bytes_length, List.range_eq_range']
    olenAligned := by rw [complete_olen, deliver_olen, Nat.mul_mod_right]
    olenBound := fun m hm => by
      have hilen : s.ilen ≤ m := le_of_withinLenMax h.ilenBound hm
      rw [complete_olen, deliver_olen, hlen]
      omega
    errKey := nofun
    errBank := nofun
    errNotReady := nofun }

/-! ### What the moves keep of it -/

theorem State.Inv.of_exec {i : Instr} {s t : State} (h : s.Inv) (hexec : exec i s = .next t) :
    t.Inv := by
  obtain ⟨-, -, rfl⟩ | ⟨-, -, rfl⟩ | ⟨-, -, rfl⟩ | ⟨-, -, rfl⟩ | ⟨-, -, rfl⟩ | ⟨-, -, rfl⟩
    | ⟨-, hready, rfl⟩ := exec_cases hexec
  · exact h.completeLoad s.keyOperand s.bank true s.sboxValid
  · exact h.raise nofun
  · exact h.completeLoad s.key s.bankOperand s.keyValid true
  · exact h.raise nofun
  · exact h.completeDeliver (encPairs_length s)
  · exact h.completeDeliver (decPairs_length s)
  · exact h.raise fun _ => hready

theorem State.Inv.of_runCode {code : Byte} {s t : State} (h : s.Inv)
    (hrun : runCode code s = .next t) : t.Inv := by
  obtain ⟨i, -, hexec⟩ | ⟨-, rfl⟩ := runCode_cases hrun
  · exact h.of_exec hexec
  · exact h.raise nofun

theorem State.Inv.of_engineTurn {s t : State} (h : s.Inv) (hturn : engineTurn s = .next t) :
    t.Inv := by
  obtain ⟨-, rfl⟩ | ⟨code, -, hrun⟩ := engineTurn_cases hturn
  · exact h
  · exact h.of_runCode hrun

/-- R17, U7: a length register takes no value above `LEN_MAX`. -/
theorem State.Inv.of_writeRegister {s t : State} {n v : Nat} (h : s.Inv)
    (hwrite : s.writeRegister n v = .next t) : t.Inv := by
  obtain ⟨-, -, rfl⟩ | ⟨-, rfl⟩ | ⟨-, hv, rfl⟩ | ⟨-, hv, rfl⟩ | ⟨-, hv, rfl⟩ :=
    writeRegister_cases hwrite
  · exact { h with }
  · exact h
  · exact { h with klenBound := hv }
  · exact { h with slenBound := hv }
  · exact { h with ilenBound := hv }

theorem State.Inv.of_writeBuffer {s t : State} {sp : Space} {a : Nat} {b : Byte} (h : s.Inv)
    (hwrite : s.writeBuffer sp a b = .next t) : t.Inv := by
  obtain ⟨-, ⟨-, rfl⟩ | ⟨-, rfl⟩ | ⟨-, rfl⟩⟩ := writeBuffer_cases hwrite
  · exact { h with keybufWf := Memory.write_wf h.keybufWf a b }
  · exact { h with sboxbufWf := Memory.write_wf h.sboxbufWf a b }
  · exact { h with inbufWf := Memory.write_wf h.inbufWf a b }

theorem State.Inv.of_move {e : Event} {s t : State} (h : s.Inv) (hmove : move e s = .next t) :
    t.Inv := by
  obtain ⟨-, hturn⟩ | ⟨-, rfl⟩ | ⟨v, rfl⟩ | ⟨_, _, -, -, hwrite⟩ | ⟨_, _, _, -, -, hwrite⟩ :=
    move_cases hmove
  · exact h.of_engineTurn hturn
  · exact s.inv_resetSignal
  · exact h.returnToHost v
  · exact h.of_writeRegister hwrite
  · exact h.of_writeBuffer hwrite

/-- Settles O50: a step is the engine's turn or a move of the script, and both keep the
invariant. -/
theorem everyStepKeepsInv : Obligations.EveryStepKeepsInv := by
  intro s t h hstep
  obtain ⟨-, hturn⟩ | ⟨_, rest, -, hmove⟩ := step_cases hstep
  · exact h.of_engineTurn hturn
  · exact (h.withSchedule rest).of_move hmove

end Sys2Proof.Machine
end

section
/-! PROOFS. How a command runs: decoding and encoding (R50, R51), the engine's turn (R111, R119),
the write to `CMD` (R15), and that every command ends (R110). -/

namespace Sys2Proof

/-- Settles O2: no bytes decode to nothing, and a first byte decodes to a command exactly when it is
the command's code, whatever follows it. -/
theorem decodeIsInverseOfEncode : Obligations.DecodeIsInverseOfEncode := by
  intro bs rest i
  cases bs with
  | nil => simp [decode, encode]
  | cons code tail =>
    have hcode : decode (code :: tail) = .ok (i, rest)
        ↔ decodeCode code = some i ∧ tail = rest := by
      cases h : decodeCode code <;> simp [decode, h]
    rw [hcode, Machine.decodeCode_eq_some_iff]
    simp [encode]

namespace Machine

/-! ### The engine's turn (R111, R119) -/

/-- Log entry 6: with an empty script a step is the engine's turn. -/
theorem step_of_schedule_nil {s : State} (h : s.schedule = []) : step s = engineTurn s := by
  simp [step, nextMove, h]

theorem engineTurn_of_idle {s : State} (h : s.running = none) : engineTurn s = .next s := by
  simp [engineTurn, h]

theorem runCode_of_decodeCode {code : Byte} {i : Instr} (h : decodeCode code = some i) (s : State) :
    runCode code s = exec i s := by
  simp [runCode, h]

/-- Settles O4: both places of the engine's turn end the executing code, which is a command's or a
reserved one. -/
theorem stepRunsTheDecodedCommand : Obligations.StepRunsTheDecodedCommand := by
  intro s u code hrun hturn
  have hstep : step s = runCode code u := by
    obtain ⟨hempty, rfl⟩ | ⟨rest, hfirst, rfl⟩ := hturn
    · rw [step_of_schedule_nil hempty, engineTurn_of_running hrun]
    · exact step_of_engine_turn hrun hfirst
  refine ⟨hstep, fun i hdecode _ => ?_, fun hreserved => ?_⟩
  · have hcode : decodeCode code = some i :=
      (decodeCode_eq_some_iff _ _).mpr ((decode_cons_eq_ok_iff code [] i).mp hdecode)
    rw [hstep, runCode_of_decodeCode hcode]
  · rw [hstep, runCode_of_decodeCode_eq_none (decodeCode_eq_none_of_reserved hreserved),
      raise_illegalCommand]

/-- The opcode-table word of a code is the code's one byte. -/
theorem head?_tableBytes_code (code : Byte) : (tableBytes 8 code.toNat).head? = some code := by
  simp [tableBytes, Nat.mod_eq_of_lt code.isLt]

/-- Settles O5: the placed code is the command's, with the engine's turn before the script. -/
theorem placedCommandRunsNext : Obligations.PlacedCommandRunsNext := by
  intro s i
  have hrun : (s.withFetchWord 8 (encodeCode i).toNat).running = some (encodeCode i) :=
    head?_tableBytes_code (encodeCode i)
  have hcode : decodeCode (encodeCode i) = some i := (decodeCode_eq_some_iff _ _).mpr rfl
  rw [step_of_engine_turn hrun rfl, runCode_of_decodeCode hcode]
  simp only [State.withFetchWord, State.placeCommand, head?_tableBytes_code]

/-- Settles O49: an idle engine's turn answers the state it is given. -/
theorem idleEngineHoldsItsState : Obligations.IdleEngineHoldsItsState := by
  refine fun s hidle => ⟨fun hempty => ?_, fun rest hfirst => ?_⟩
  · rw [step_of_schedule_nil hempty, engineTurn_of_idle hidle]
  · rw [step_of_schedule_cons hfirst]
    exact engineTurn_of_idle hidle

/-! ### `STATUS` as a number (R14) -/

theorem status_toNat (s : State) :
    s.status.toNat
      = s.busy.toNat + 2 * s.keyValid.toNat + 4 * s.sboxValid.toNat + 16 * s.err.code.toNat := by
  simp only [State.status, toNat_append_eq_add, BitVec.toNat_ofBool, BitVec.toNat_ofNat]
  omega

/-- Settles O31: the fields of `STATUS` count by their places, a zero bit stands in place 3, and the
five completion codes are 0 to 4. -/
theorem statusByteLayout : Obligations.StatusByteLayout := by
  refine fun s => ⟨status_toNat s, ?_, ?_⟩
  · have := Bool.toNat_le s.busy; have := Bool.toNat_le s.keyValid
    have := Bool.toNat_le s.sboxValid
    rw [BitVec.getLsbD, status_toNat, Nat.testBit_eq_decide_div_mod_eq, decide_eq_false_iff_not]
    omega
  · cases s.err <;> decide

/-- Settles O6: the write starts the code, and the executing code is bit 0 of `STATUS`. -/
theorem commandWriteSetsBusy : Obligations.CommandWriteSetsBusy := by
  refine fun s code rest hidle hs => ⟨_, step_of_command_write hidle hs, rfl, ?_⟩
  rw [status_toNat]
  simp only [State.busy, Option.isSome_some, Bool.toNat_true]
  omega

theorem resetSignal_status (s : State) : s.resetSignal.status = 0x00 :=
  (rfl : s.resetSignal.status = State.reset.status).trans reset_status

/-- Settles O47: RESET puts the engine into the reset state, which is idle; the script goes on. -/
theorem resetGivesIdleEngineWithoutKey : Obligations.ResetGivesIdleEngineWithoutKey := by
  intro s rest hs
  refine ⟨State.resetSignal { s with schedule := rest }, step_of_schedule_cons hs,
    resetSignal_status _, rfl, rfl, rfl, rfl, rfl, rfl, fun hempty => ?_⟩
  exact (step_of_schedule_nil hempty).trans (engineTurn_of_idle rfl)

/-! ### Every command ends (R110) -/

/-- A command, from any state, has a next state, in which the engine is idle and the script is what
it was. -/
theorem exec_ends (i : Instr) (s : State) :
    ∃ t, exec i s = .next t ∧ t.running = none ∧ t.schedule = s.schedule := by
  cases i with
  | ldkey =>
    by_cases hlen : s.klen = 32
    · exact ⟨_, execLdkey_of_klen hlen, rfl, rfl⟩
    · exact ⟨_, execLdkey_of_klen_ne hlen, rfl, rfl⟩
  | ldsbox =>
    rcases Nat.lt_or_ge s.slen 64 with hlen | hlen
    · exact ⟨_, execLdsbox_of_slen_lt hlen, rfl, rfl⟩
    · exact ⟨_, execLdsbox_of_slen hlen, rfl, rfl⟩
  | enc =>
    cases hready : s.ready
    · exact ⟨_, execEnc_of_not_ready hready, rfl, rfl⟩
    · exact ⟨_, execEnc_of_ready hready, rfl, rfl⟩
  | dec =>
    cases hready : s.ready
    · exact ⟨_, execDec_of_not_ready hready, rfl, rfl⟩
    · exact ⟨_, execDec_of_ready hready, rfl, rfl⟩

theorem runCode_ends (code : Byte) (s : State) :
    ∃ t, runCode code s = .next t ∧ t.running = none ∧ t.schedule = s.schedule := by
  cases hcode : decodeCode code with
  | some i => rw [runCode_of_decodeCode hcode]; exact exec_ends i s
  | none => exact ⟨_, runCode_of_decodeCode_eq_none hcode s, rfl, rfl⟩

theorem busy_eq_false_iff {s : State} : s.busy = false ↔ s.running = none := by
  simp [State.busy]

/-- Settles O7: each command has an end in which nothing is executing. -/
theorem everyCommandEndsIdle : Obligations.EveryCommandEndsIdle := by
  intro i s
  obtain ⟨t, hexec, hidle, -⟩ := exec_ends i s
  exact ⟨t, hexec, busy_eq_false_iff.mpr hidle⟩

/-- Settles O9: no test of a command reads `ERR`, and each of its ends writes it. -/
theorem completionCodeIsNotSticky : Obligations.CompletionCodeIsNotSticky := by
  intro i s e
  cases i with
  | ldkey => rfl
  | ldsbox => rfl
  | enc => rfl
  | dec => rfl

end Machine

end Sys2Proof
end

section
/-! PROOFS. The word operations and the round: the byte order (R8), the rotation (R7), the packing
of a bank (R63), and the inversion of a round (R75, R81). -/

namespace Sys2Proof.Machine

/-! ### The byte order (R8) -/

/-- A byte cut out of a u32, as a number. -/
theorem extractByte_toNat (v : Word) (p : Nat) :
    (v.extractLsb' p 8).toNat = v.toNat / 2 ^ p % 256 := by
  rw [BitVec.extractLsb'_toNat, Nat.shiftRight_eq_div_pow]

theorem bytesLE32_toNat (v : Word) :
    (bytesLE32 v).map BitVec.toNat
      = [v.toNat % 256, v.toNat / 2 ^ 8 % 256, v.toNat / 2 ^ 16 % 256, v.toNat / 2 ^ 24 % 256] := by
  simp only [bytesLE32, List.map_cons, List.map_nil, extractByte_toNat, Nat.pow_zero, Nat.div_one]

/-- `bytesLE32` takes apart what `LE32` puts together: the bytes are the digits of the number in
base 256. -/
theorem bytesLE32_le32 (b0 b1 b2 b3 : Byte) : bytesLE32 (le32 b0 b1 b2 b3) = [b0, b1, b2, b3] := by
  have h0 := b0.isLt; have h1 := b1.isLt; have h2 := b2.isLt; have h3 := b3.isLt
  refine List.map_injective_iff.mpr (fun x y => BitVec.eq_of_toNat_eq) ?_
  rw [bytesLE32_toNat, le32_toNat]
  simp only [List.map_cons, List.map_nil, List.cons.injEq, and_true]
  omega

/-- Settles O13: both operations as numbers, and the inversion that follows from them. -/
theorem byteOrderIsLittleEndian : Obligations.ByteOrderIsLittleEndian :=
  ⟨le32_toNat, bytesLE32_toNat, bytesLE32_le32⟩

/-! ### The rotation (R7) -/

/-- Settles O15: below bit `32 - s` the rotation moves a bit up; from there on it wraps round. -/
theorem rotationMovesEveryBitRound : Obligations.RotationMovesEveryBitRound := by
  intro a s b hs1 hs31 hb
  unfold rotl32
  rcases Nat.lt_or_ge b (32 - s) with hlow | hhigh
  · rw [Nat.mod_eq_of_lt (by omega)]
    simp [show b + s < 32 by omega, show 32 - s + (b + s) = b + 32 by omega,
      BitVec.getLsbD_eq_getElem hb]
  · rw [show (b + s) % 32 = b + s - 32 by omega]
    simp [show b + s - 32 < s by omega, show 32 - s + (b + s - 32) = b by omega]

/-! ### The packing of a bank (R63) -/

/-- The two nibbles of a packed byte are the entries it was packed from. -/
theorem eq_of_packed {lo hi lo' hi' : Nibble} {b : Nat} (hpack : b = lo.toNat + 16 * hi.toNat)
    (hlo : lo'.toNat = b % 16) (hhi : hi'.toNat = b / 16) : lo' = lo ∧ hi' = hi := by
  have := lo.isLt
  exact ⟨BitVec.eq_of_toNat_eq (by omega), BitVec.eq_of_toNat_eq (by omega)⟩

/-- Settles O12: entries `2j` and `2j + 1` of a loaded table are the nibbles of byte `j`, and every
entry is one of these. -/
theorem packedBankLoadsBack : Obligations.PackedBankLoadsBack := by
  intro s T hlen hpacked
  obtain ⟨t, hexec, -, hload⟩ := (ldsboxUnpacksEightTables s).1 hlen
  refine ⟨t, hexec, Vector.ext fun i hi => Vector.ext fun v hv => ?_⟩
  have hpair := fun j lo hi' hlo hhi =>
    eq_of_packed (hpacked ⟨i, hi⟩ j lo hi' hlo hhi) (hload ⟨i, hi⟩ j lo hi' hlo hhi).1
      (hload ⟨i, hi⟩ j lo hi' hlo hhi).2
  obtain ⟨j, rfl | rfl⟩ := Nat.even_or_odd' v
  · exact (hpair ⟨j, by omega⟩ ⟨2 * j, hv⟩ ⟨2 * j + 1, by omega⟩ rfl rfl).1
  · exact (hpair ⟨j, by omega⟩ ⟨2 * j, by omega⟩ ⟨2 * j + 1, hv⟩ rfl rfl).2

/-! ### The round and the key order (R75, R81) -/

/-- Settles O16: the new `N2` is the old `N1`, so the value of `F` is known and the xor with it
cancels. -/
theorem feistelRoundIsInvertible : Obligations.FeistelRoundIsInvertible := by
  refine fun S k w => ⟨rfl, ?_⟩
  simp [feistelRound]

/-- Settles O18: place `i` of a reversed list of 32 is place `31 - i` of the list. -/
theorem decryptionOrderIsEncryptionOrderReversed :
    Obligations.DecryptionOrderIsEncryptionOrderReversed := by
  intro i
  rw [← reverse_kidxEnc, List.getElem?_reverse i.isLt]
  rfl

end Sys2Proof.Machine
end

section
/-! PROOFS. The key, the bank and the valid bits: what writes them (R11, R13, R14, R122), what the
output of an unsuccessful command is (R42), and that an unloaded register is not read (R22). -/

namespace Sys2Proof.Machine

/-! ### What a command writes of the key, the bank and the output -/

/-- The key register and `KEY_VALID` after a command: a successful `LDKEY` has loaded them, any
other command keeps the key and sets no valid bit. -/
theorem key_of_exec {i : Instr} {s t : State} (h : exec i s = .next t) :
    (i = .ldkey ∧ s.klen = 32 ∧ t.keyValid = true)
    ∨ (t.key = s.key ∧ (t.keyValid = true → s.keyValid = true)) := by
  obtain ⟨rfl, hlen, rfl⟩ | ⟨-, -, rfl⟩ | ⟨-, -, rfl⟩ | ⟨-, -, rfl⟩ | ⟨-, -, rfl⟩ | ⟨-, -, rfl⟩
    | ⟨-, -, rfl⟩ := exec_cases h
  · exact .inl ⟨rfl, hlen, rfl⟩
  all_goals exact .inr (by simp [raise_keyValid])

/-- The bank and `SBOX_VALID` after a command, with `LDSBOX` as the load. -/
theorem bank_of_exec {i : Instr} {s t : State} (h : exec i s = .next t) :
    (i = .ldsbox ∧ 64 ≤ s.slen ∧ t.sboxValid = true)
    ∨ (t.bank = s.bank ∧ (t.sboxValid = true → s.sboxValid = true)) := by
  obtain ⟨-, -, rfl⟩ | ⟨-, -, rfl⟩ | ⟨rfl, hlen, rfl⟩ | ⟨-, -, rfl⟩ | ⟨-, -, rfl⟩ | ⟨-, -, rfl⟩
    | ⟨-, -, rfl⟩ := exec_cases h
  case inr.inr.inl => exact .inl ⟨rfl, hlen, rfl⟩
  all_goals exact .inr (by simp [raise_sboxValid])

theorem key_of_runCode {code : Byte} {s t : State} (h : runCode code s = .next t) :
    (decodeCode code = some .ldkey ∧ s.klen = 32 ∧ t.keyValid = true)
    ∨ (t.key = s.key ∧ (t.keyValid = true → s.keyValid = true)) := by
  obtain ⟨i, hcode, hexec⟩ | ⟨-, rfl⟩ := runCode_cases h
  · exact (key_of_exec hexec).imp_left fun ⟨hi, hload⟩ => ⟨hi ▸ hcode, hload⟩
  · exact .inr ⟨rfl, id⟩

theorem bank_of_runCode {code : Byte} {s t : State} (h : runCode code s = .next t) :
    (decodeCode code = some .ldsbox ∧ 64 ≤ s.slen ∧ t.sboxValid = true)
    ∨ (t.bank = s.bank ∧ (t.sboxValid = true → s.sboxValid = true)) := by
  obtain ⟨i, hcode, hexec⟩ | ⟨-, rfl⟩ := runCode_cases h
  · exact (bank_of_exec hexec).imp_left fun ⟨hi, hload⟩ => ⟨hi ▸ hcode, hload⟩
  · exact .inr ⟨rfl, id⟩

/-- R42: a load, successful or not, writes no output. -/
theorem output_of_exec_load {i : Instr} {s t : State} (hi : i = .ldkey ∨ i = .ldsbox)
    (h : exec i s = .next t) : t.outbuf = s.outbuf ∧ t.olen = s.olen := by
  obtain ⟨-, -, rfl⟩ | ⟨-, -, rfl⟩ | ⟨-, -, rfl⟩ | ⟨-, -, rfl⟩ | ⟨rfl, -, -⟩ | ⟨rfl, -, -⟩
    | ⟨rfl | rfl, -, -⟩ := exec_cases h
  · exact ⟨rfl, rfl⟩
  · exact ⟨rfl, rfl⟩
  · exact ⟨rfl, rfl⟩
  · exact ⟨rfl, rfl⟩
  all_goals simp at hi

/-- Settles O37: `raise` writes no output, and neither does a load. -/
theorem outputKeptByErrorsAndLoads : Obligations.OutputKeptByErrorsAndLoads := by
  intro code s t hrun hcause
  rcases hcause with herr | hload
  · rw [eq_raise_of_runCode hrun herr]
    exact ⟨rfl, rfl⟩
  · obtain ⟨i, hcode, hexec⟩ | ⟨hcode, -⟩ := runCode_cases hrun
    · exact output_of_exec_load (by simpa [hcode] using hload) hexec
    · simp [hcode] at hload

/-! ### What a step writes of the key, the bank and the valid bits -/

/-- Two states have the same key, bank and valid bits. -/
def SameLoaded (t s : State) : Prop :=
  t.key = s.key ∧ t.bank = s.bank ∧ t.keyValid = s.keyValid ∧ t.sboxValid = s.sboxValid

theorem sameLoaded_of_writeRegister {s t : State} {n v : Nat} (h : s.writeRegister n v = .next t) :
    SameLoaded t s := by
  obtain ⟨-, -, rfl⟩ | ⟨-, rfl⟩ | ⟨-, -, rfl⟩ | ⟨-, -, rfl⟩ | ⟨-, -, rfl⟩ := writeRegister_cases h
  all_goals exact ⟨rfl, rfl, rfl, rfl⟩

theorem sameLoaded_of_writeBuffer {s t : State} {sp : Space} {a : Nat} {b : Byte}
    (h : s.writeBuffer sp a b = .next t) : SameLoaded t s := by
  obtain ⟨-, ⟨-, rfl⟩ | ⟨-, rfl⟩ | ⟨-, rfl⟩⟩ := writeBuffer_cases h
  all_goals exact ⟨rfl, rfl, rfl, rfl⟩

/-- The engine's turn ends the executing command, or leaves an idle engine's registers. -/
theorem engineTurn_loaded_cases {s t : State} (h : engineTurn s = .next t) :
    (∃ code, s.running = some code ∧ runCode code s = .next t) ∨ SameLoaded t s := by
  obtain ⟨-, rfl⟩ | hcommand := engineTurn_cases h
  · exact .inr ⟨rfl, rfl, rfl, rfl⟩
  · exact .inl hcommand

/-- A step ends the executing command, or is a RESET, or writes none of the key, the bank and the
valid bits: the host has no access that does (R122). -/
theorem step_loaded_cases {s t : State} (h : step s = .next t) :
    (∃ code rest, s.running = some code ∧ runCode code { s with schedule := rest } = .next t)
    ∨ (∃ rest, s.schedule = .reset :: rest
      ∧ t = State.resetSignal { s with schedule := rest })
    ∨ SameLoaded t s := by
  obtain ⟨-, hturn⟩ | ⟨e, rest, hs, hmove⟩ := step_cases h
  · obtain ⟨code, hrun, hcode⟩ | hsame := engineTurn_loaded_cases hturn
    · exact .inl ⟨code, s.schedule, hrun, hcode⟩
    · exact .inr (.inr hsame)
  · obtain ⟨-, hturn⟩ | ⟨rfl, rfl⟩ | ⟨v, rfl⟩ | ⟨_, _, -, -, hwrite⟩ | ⟨_, _, _, -, -, hwrite⟩ :=
      move_cases hmove
    · obtain ⟨code, hrun, hcode⟩ | hsame := engineTurn_loaded_cases hturn
      · exact .inl ⟨code, rest, hrun, hcode⟩
      · exact .inr (.inr hsame)
    · exact .inr (.inl ⟨rest, hs, rfl⟩)
    · exact .inr (.inr ⟨rfl, rfl, rfl, rfl⟩)
    · exact .inr (.inr (sameLoaded_of_writeRegister (s := { s with schedule := rest }) hwrite))
    · exact .inr (.inr (sameLoaded_of_writeBuffer (s := { s with schedule := rest }) hwrite))

/-- Settles O34: a command other than a successful load sets no valid bit, RESET clears both, and
any other step leaves them. -/
theorem onlySuccessfulLoadsSetValidBits : Obligations.OnlySuccessfulLoadsSetValidBits := by
  intro s t hstep
  obtain ⟨code, rest, hrun, hcode⟩ | ⟨_, -, rfl⟩ | ⟨-, -, hkv, hsv⟩ := step_loaded_cases hstep
  · refine ⟨fun hold hnew => ?_, fun hold hnew => ?_⟩
    · obtain ⟨hload, hlen, -⟩ | ⟨-, hkept⟩ := key_of_runCode hcode
      · exact ⟨code, hrun, hload, hlen⟩
      · exact absurd (hkept hnew) (by simp [hold])
    · obtain ⟨hload, hlen, -⟩ | ⟨-, hkept⟩ := bank_of_runCode hcode
      · exact ⟨code, hrun, hload, hlen⟩
      · exact absurd (hkept hnew) (by simp [hold])
  · exact ⟨fun _ => nofun, fun _ => nofun⟩
  · rw [hkv, hsv]
    exact ⟨fun hold hnew => by simp [hold] at hnew, fun hold hnew => by simp [hold] at hnew⟩

/-- Settles O35: a command other than a successful load keeps the register, and so does any step
that neither ends a command nor is a RESET. -/
theorem keyAndBankChangeOnlyByLoadsOrReset : Obligations.KeyAndBankChangeOnlyByLoadsOrReset := by
  intro s t hstep hreset
  obtain ⟨code, rest, hrun, hcode⟩ | ⟨_, hs, -⟩ | ⟨hkey, hbank, -, -⟩ := step_loaded_cases hstep
  · refine ⟨fun hchanged => ?_, fun hchanged => ?_⟩
    · obtain ⟨hload, hlen, hvalid⟩ | ⟨hkept, -⟩ := key_of_runCode hcode
      · exact ⟨code, hrun, hload, hlen, hvalid⟩
      · exact absurd hkept hchanged
    · obtain ⟨hload, hlen, hvalid⟩ | ⟨hkept, -⟩ := bank_of_runCode hcode
      · exact ⟨code, hrun, hload, hlen, hvalid⟩
      · exact absurd hkept hchanged
  · simp [hs] at hreset
  · exact ⟨fun hchanged => absurd hkey hchanged, fun hchanged => absurd hbank hchanged⟩

/-! ### An unloaded register is not read (R22) -/

/-- Without a Key a command does not read `K`: `LDKEY` replaces it or fails, and `ENC` and `DEC` are
not ready. -/
theorem exec_with_key {i : Instr} {s t : State} (h : exec i s = .next t)
    (hinvalid : s.keyValid = false) (K : Key) :
    ∃ K' : Key, exec i { s with key := K } = .next { t with key := K' }
      ∧ (t.keyValid = true → K' = t.key) := by
  have hnotReady : s.ready = false := not_ready_of_not_valid (.inl hinvalid)
  obtain ⟨rfl, hlen, rfl⟩ | ⟨rfl, hlen, rfl⟩ | ⟨rfl, hlen, rfl⟩ | ⟨rfl, hlen, rfl⟩ | ⟨-, hready, -⟩
    | ⟨-, hready, -⟩ | ⟨rfl | rfl, hready, rfl⟩ := exec_cases h
  · exact ⟨_, execLdkey_of_klen hlen, fun _ => rfl⟩
  · exact ⟨K, execLdkey_of_klen_ne hlen, nofun⟩
  · exact ⟨K, execLdsbox_of_slen hlen, by simp [hinvalid]⟩
  · exact ⟨K, execLdsbox_of_slen_lt hlen, by simp [raise_keyValid, hinvalid]⟩
  · cases hnotReady.symm.trans hready
  · cases hnotReady.symm.trans hready
  · exact ⟨K, execEnc_of_not_ready hready, by simp [raise_keyValid, hinvalid]⟩
  · exact ⟨K, execDec_of_not_ready hready, by simp [raise_keyValid, hinvalid]⟩

/-- Without a SubstitutionBank a command does not read `S`. -/
theorem exec_with_bank {i : Instr} {s t : State} (h : exec i s = .next t)
    (hinvalid : s.sboxValid = false) (S : Bank) :
    ∃ S' : Bank, exec i { s with bank := S } = .next { t with bank := S' }
      ∧ (t.sboxValid = true → S' = t.bank) := by
  have hnotReady : s.ready = false := not_ready_of_not_valid (.inr hinvalid)
  obtain ⟨rfl, hlen, rfl⟩ | ⟨rfl, hlen, rfl⟩ | ⟨rfl, hlen, rfl⟩ | ⟨rfl, hlen, rfl⟩ | ⟨-, hready, -⟩
    | ⟨-, hready, -⟩ | ⟨rfl | rfl, hready, rfl⟩ := exec_cases h
  · exact ⟨S, execLdkey_of_klen hlen, by simp [hinvalid]⟩
  · exact ⟨S, execLdkey_of_klen_ne hlen, by simp [raise_sboxValid, hinvalid]⟩
  · exact ⟨_, execLdsbox_of_slen hlen, fun _ => rfl⟩
  · exact ⟨S, execLdsbox_of_slen_lt hlen, nofun⟩
  · cases hnotReady.symm.trans hready
  · cases hnotReady.symm.trans hready
  · exact ⟨S, execEnc_of_not_ready hready, by simp [raise_sboxValid, hinvalid]⟩
  · exact ⟨S, execDec_of_not_ready hready, by simp [raise_sboxValid, hinvalid]⟩

/-- Settles O39: a command does not read an unloaded register, and a reserved code reads neither. -/
theorem unloadedRegistersAreUnobservable : Obligations.UnloadedRegistersAreUnobservable := by
  intro code s t hrun
  obtain ⟨i, hcode, hexec⟩ | ⟨hcode, rfl⟩ := runCode_cases hrun
  · simp only [runCode_of_decodeCode hcode]
    exact ⟨exec_with_key hexec, exec_with_bank hexec⟩
  · simp only [runCode_of_decodeCode_eq_none hcode]
    refine ⟨fun hinvalid K => ⟨K, rfl, fun hvalid => ?_⟩,
      fun hinvalid S => ⟨S, rfl, fun hvalid => ?_⟩⟩
    · simp [raise_keyValid, hinvalid] at hvalid
    · simp [raise_sboxValid, hinvalid] at hvalid

end Sys2Proof.Machine
end

section
/-! PROOFS. The host's side of the interface: register and buffer accesses of the idle engine (R17,
R18, R20, R42), the busy rule (R121), polling (R123), and what a read cannot show (R108). -/

namespace Sys2Proof.Machine

open Host

/-! ### The accesses of the idle engine -/

/-- R121: `STATUS` can be read at any time. -/
theorem hostReadRegister_status (s : State) :
    s.hostReadRegister 1 = .next (s.returnToHost s.status.toNat) := rfl

theorem hostReadRegister_of_ne (s : State) {n : Nat} (hn : n ≠ 1) :
    s.hostReadRegister n = s.whenIdle (s.readRegister n) := if_neg hn

theorem hostReadRegister_of_idle {s : State} (h : s.running = none) (n : Nat) :
    s.hostReadRegister n = s.readRegister n := by
  by_cases hn : n = 1
  · subst hn
    rfl
  · rw [hostReadRegister_of_ne s hn, whenIdle_of_idle h]

theorem step_of_register_read {s : State} {n : Nat} {rest : List Event} (hidle : s.running = none)
    (hs : s.schedule = .readReg n :: rest) :
    step s = State.readRegister { s with schedule := rest } n :=
  (step_of_schedule_cons hs).trans
    (hostReadRegister_of_idle (s := { s with schedule := rest }) hidle n)

theorem step_of_register_write {s : State} {n v : Nat} {rest : List Event}
    (hidle : s.running = none) (hs : s.schedule = .writeReg n v :: rest) :
    step s = State.writeRegister { s with schedule := rest } n v :=
  (step_of_schedule_cons hs).trans (whenIdle_of_idle hidle _)

theorem step_of_buffer_read {s : State} {sp : Space} {a : Nat} {rest : List Event}
    (hidle : s.running = none) (hs : s.schedule = .readBuf sp a :: rest) :
    step s = State.readBuffer { s with schedule := rest } sp a :=
  (step_of_schedule_cons hs).trans (whenIdle_of_idle hidle _)

theorem step_of_buffer_write {s : State} {sp : Space} {a : Nat} {b : Byte} {rest : List Event}
    (hidle : s.running = none) (hs : s.schedule = .writeBuf sp a b :: rest) :
    step s = State.writeBuffer { s with schedule := rest } sp a b :=
  (step_of_schedule_cons hs).trans (whenIdle_of_idle hidle _)

/-! ### Registers (R17, R18) -/

/-- R18, U10: the numbers from 6 on name no register. -/
theorem readRegister_of_six_le (s : State) {n : Nat} (h : 6 ≤ n) :
    s.readRegister n = .refused .noSuchOperation := by
  obtain ⟨n, rfl⟩ := Nat.exists_eq_add_of_le' h
  rfl

theorem writeRegister_of_six_le (s : State) {n : Nat} (v : Nat) (h : 6 ≤ n) :
    s.writeRegister n v = .refused .noSuchOperation := by
  obtain ⟨n, rfl⟩ := Nat.exists_eq_add_of_le' h
  rfl

/-- Settles O43, register by register: `CMD`, the five that can be read, and the rest. -/
theorem registerReadsReturnTheRegister : Obligations.RegisterReadsReturnTheRegister := by
  intro s n rest hidle hs
  rw [step_of_register_read hidle hs]
  match n with
  | 0 | 1 | 2 | 3 | 4 | 5 => rfl
  | n + 6 => exact (readRegister_of_six_le _ (Nat.le_add_left 6 n)).trans (by simp)

/-- A length register takes the value `v`, or the write is refused when `v` exceeds `LEN_MAX`. -/
theorem ite_within_eq_ite_above (v : Nat) (t : State) :
    (if Config.withinLenMax v then .next t else .refused .lengthAboveMax :
        Outcome State Fault Refusal)
      = if Config.withinLenMax v = false then .refused .lengthAboveMax else .next t := by
  cases Config.withinLenMax v <;> rfl

/-- Settles O44, register by register: the two that ignore a write, the three lengths, and the
rest. -/
theorem registerWritesChangeOneLength : Obligations.RegisterWritesChangeOneLength := by
  intro s n v rest hidle hn hs
  rw [step_of_register_write hidle hs]
  match n with
  | 0 => exact absurd rfl hn
  | 1 | 5 => rfl
  | 2 | 3 | 4 => exact ite_within_eq_ite_above v _
  | n + 6 => exact (writeRegister_of_six_le _ v (Nat.le_add_left 6 n)).trans (by simp)

/-! ### Buffer spaces (R20, R42) -/

/-- The byte a space lists, or the free value of an unwritten one (log entry 4). -/
theorem byteAt_eq_getD (s : State) (sp : Space) (a : Nat) :
    s.byteAt sp a = (Memory.read (s.space sp) a).getD (Config.unwrittenByte s.epoch sp a) := by
  unfold State.byteAt
  cases Memory.read (s.space sp) a <;> rfl

theorem readBuffer_of_input_space (s : State) {sp : Space} (a : Nat) (hsp : sp ≠ .outbuf) :
    s.readBuffer sp a
      = if Config.withinLenMax (a + 1) then .next (s.returnToHost (s.byteAt sp a).toNat)
        else .fault (.noSuchAddress sp a) := by
  cases sp with
  | outbuf => exact absurd rfl hsp
  | keybuf | sboxbuf | inbuf => rfl

/-- Settles O52: the address is below `LEN_MAX`, so the read answers the byte. -/
theorem inputSpaceReadsReturnTheByte : Obligations.InputSpaceReadsReturnTheByte := by
  intro s sp a rest hidle hsp ha hs
  rw [step_of_buffer_read hidle hs, readBuffer_of_input_space _ a hsp, if_pos ha]
  rfl

/-- Settles O46: `OLEN` is what the access of the idle engine compares the address with. -/
theorem outbufReadsStopAtOlen : Obligations.OutbufReadsStopAtOlen :=
  fun _ _ _ hidle hs => step_of_buffer_read hidle hs

/-- `s` with the byte `b` written at address `a` of the space `sp`. -/
def State.writeSpace (s : State) (sp : Space) (a : Nat) (b : Byte) : State :=
  match sp with
  | .keybuf => { s with keybuf := Memory.write s.keybuf a b }
  | .sboxbuf => { s with sboxbuf := Memory.write s.sboxbuf a b }
  | .inbuf => { s with inbuf := Memory.write s.inbuf a b }
  | .outbuf => { s with outbuf := Memory.write s.outbuf a b }

theorem writeBuffer_of_input_space (s : State) {sp : Space} (a : Nat) (b : Byte)
    (hsp : sp ≠ .outbuf) :
    s.writeBuffer sp a b
      = if Config.withinLenMax (a + 1) then .next (s.writeSpace sp a b)
        else .fault (.noSuchAddress sp a) := by
  cases sp with
  | outbuf => exact absurd rfl hsp
  | keybuf | sboxbuf | inbuf => rfl

@[simp] theorem writeSpace_epoch (s : State) (sp : Space) (a : Nat) (b : Byte) :
    (s.writeSpace sp a b).epoch = s.epoch := by
  cases sp <;> rfl

theorem space_writeSpace (s : State) (sp sp' : Space) (a : Nat) (b : Byte) :
    (s.writeSpace sp a b).space sp'
      = if sp' = sp then Memory.write (s.space sp') a b else s.space sp' := by
  cases sp <;> cases sp' <;> rfl

/-- A byte reads as written, and every other byte of every space as before. -/
theorem byteAt_writeSpace (s : State) (sp sp' : Space) (a a' : Nat) (b : Byte) :
    (s.writeSpace sp a b).byteAt sp' a' = if sp' = sp ∧ a' = a then b else s.byteAt sp' a' := by
  rw [byteAt_eq_getD, byteAt_eq_getD, writeSpace_epoch, space_writeSpace]
  by_cases hsp : sp' = sp
  · by_cases ha : a' = a
    · simp [hsp, ha, Memory.read_write_same]
    · simp [hsp, ha, Memory.read_write_other]
  · simp [hsp]

/-- Settles O45: the write answers the state with the one byte written. -/
theorem bufferWriteChangesOneByte : Obligations.BufferWriteChangesOneByte := by
  intro s sp a b rest hidle hsp ha hs
  refine ⟨State.writeSpace { s with schedule := rest } sp a b, ?_,
    fun sp' a' => byteAt_writeSpace _ sp sp' a a' b, ?_⟩
  · rw [step_of_buffer_write hidle hs, writeBuffer_of_input_space _ a b hsp, if_pos ha]
  · cases sp with
    | outbuf => exact absurd rfl hsp
    | keybuf | sboxbuf | inbuf => rfl

/-! ### Which moves of the idle engine have a next state -/

/-- Whether an outcome is a next state. -/
def HasNext (o : Outcome State Fault Refusal) : Prop := ∃ t, o = .next t

theorem hasNext_next (t : State) : HasNext (.next t) := ⟨t, rfl⟩

theorem not_hasNext_fault (r : Fault) : ¬ HasNext (.fault r) := nofun

theorem not_hasNext_refused (r : Refusal) : ¬ HasNext (.refused r) := nofun

/-- An access that runs under a check has a next state exactly when the check passes. -/
theorem hasNext_ite_iff {c : Prop} [Decidable c] {t : State} {o : Outcome State Fault Refusal}
    (ho : ¬ HasNext o) : HasNext (if c then .next t else o) ↔ c := by
  split
  · next hc => exact ⟨fun _ => hc, fun _ => hasNext_next t⟩
  · next hc => exact ⟨fun h => absurd h ho, fun h => absurd h hc⟩

theorem hasNext_readRegister_iff (s : State) (n : Nat) :
    HasNext (s.readRegister n) ↔ Event.readableRegister n = true := by
  match n with
  | 0 => exact iff_of_false (not_hasNext_refused _) (by decide)
  | 1 | 2 | 3 | 4 | 5 => exact iff_of_true (hasNext_next _) (by decide)
  | n + 6 =>
    rw [readRegister_of_six_le _ (Nat.le_add_left 6 n)]
    exact iff_of_false (not_hasNext_refused _) (by simp [Event.readableRegister])

theorem hasNext_writeRegister_iff (s : State) (n v : Nat) :
    HasNext (s.writeRegister n v) ↔ Event.registerWrite n v = true := by
  match n with
  | 0 => exact (hasNext_ite_iff (not_hasNext_refused _)).trans decide_eq_true_iff.symm
  | 1 | 5 => exact iff_of_true (hasNext_next _) rfl
  | 2 | 3 | 4 => exact hasNext_ite_iff (not_hasNext_refused _)
  | n + 6 =>
    rw [writeRegister_of_six_le _ v (Nat.le_add_left 6 n)]
    exact iff_of_false (not_hasNext_refused _) Bool.false_ne_true

theorem hasNext_readBuffer_iff {s : State} {sp : Space} {a : Nat}
    (hout : sp = .outbuf → a < s.olen) :
    HasNext (s.readBuffer sp a) ↔ (Event.readBuf sp a).wellFormed = true := by
  cases sp with
  | outbuf => exact iff_of_true ((hasNext_ite_iff (not_hasNext_refused _)).mpr (hout rfl)) rfl
  | keybuf | sboxbuf | inbuf => exact hasNext_ite_iff (not_hasNext_fault _)

theorem hasNext_writeBuffer_iff (s : State) (sp : Space) (a : Nat) (b : Byte) :
    HasNext (s.writeBuffer sp a b) ↔ (Event.writeBuf sp a b).wellFormed = true := by
  cases sp with
  | outbuf => exact iff_of_false (not_hasNext_refused _) Bool.false_ne_true
  | keybuf | sboxbuf | inbuf => exact hasNext_ite_iff (not_hasNext_fault _)

/-- Settles O42: the engine's turn and RESET always run, and each access checks what well-formedness
asks of its move. -/
theorem idleMovesRunExactlyWhenWellFormed : Obligations.IdleMovesRunExactlyWhenWellFormed := by
  intro s e rest hidle hs hout
  change HasNext (step s) ↔ _
  cases e with
  | engine => exact iff_of_true ⟨_, (idleEngineHoldsItsState s hidle).2 rest hs⟩ rfl
  | reset => exact iff_of_true ⟨_, step_of_schedule_cons hs⟩ rfl
  | readReg n => rw [step_of_register_read hidle hs]; exact hasNext_readRegister_iff _ n
  | writeReg n v => rw [step_of_register_write hidle hs]; exact hasNext_writeRegister_iff _ n v
  | readBuf sp a =>
    rw [step_of_buffer_read hidle hs]
    exact hasNext_readBuffer_iff fun hsp => hout a (hsp ▸ rfl)
  | writeBuf sp a b =>
    rw [step_of_buffer_write hidle hs]
    exact hasNext_writeBuffer_iff _ sp a b

/-! ### The busy rule (R121) and polling (R123) -/

theorem whenIdle_of_busy {s : State} (h : s.busy = true) (act : Outcome State Fault Refusal) :
    s.whenIdle act = .refused .hostActionWhileBusy := if_pos h

/-- Settles O41: a read of `STATUS` does not look at `BUSY`, and every other access does. -/
theorem busyEngineAllowsOnlyStatusReads : Obligations.BusyEngineAllowsOnlyStatusReads := by
  intro s e rest hbusy hs haccess
  rw [step_of_schedule_cons hs]
  cases e with
  | engine => cases haccess
  | reset => cases haccess
  | readReg n =>
    by_cases hn : n = 1
    · subst hn
      exact hostReadRegister_status _
    · rw [if_neg (by simpa using hn)]
      exact (hostReadRegister_of_ne _ hn).trans (whenIdle_of_busy hbusy _)
  | writeReg n v => exact whenIdle_of_busy hbusy _
  | readBuf sp a => exact whenIdle_of_busy hbusy _
  | writeBuf sp a b => exact whenIdle_of_busy hbusy _

theorem runSteps_succ_of_step {s t : State} (h : step s = .next t) (k : Nat) :
    runSteps (k + 1) s = runSteps k t := by
  simp [runSteps, h]

/-- The engine's turn of a busy engine ends its command and leaves the script. -/
theorem engineTurn_of_busy {s : State} (h : s.busy = true) :
    ∃ t, engineTurn s = .next t ∧ t.busy = false ∧ t.schedule = s.schedule := by
  obtain ⟨code, hrun⟩ := Option.isSome_iff_exists.mp h
  obtain ⟨t, hcode, hidle, hschedule⟩ := runCode_ends code s
  exact ⟨t, (engineTurn_of_running hrun).trans hcode, busy_eq_false_iff.mpr hidle, hschedule⟩

/-- Settles O8, by induction on the number of polls: a poll leaves the engine busy and takes itself
from the script, and with the script used up the engine has the turn. -/
theorem polledCommandTerminates : Obligations.PolledCommandTerminates := by
  intro n
  induction n with
  | zero =>
    intro s hbusy hs
    obtain ⟨t, hturn, hidle, hschedule⟩ := engineTurn_of_busy hbusy
    refine ⟨t, ?_, hidle, hschedule.trans hs⟩
    rw [runSteps_succ_of_step ((step_of_schedule_nil hs).trans hturn)]
    rfl
  | succ n ih =>
    intro s hbusy hs
    have hpoll : step s = .next { s with
        schedule := List.replicate n (.readReg 1), hostRead := some s.status.toNat } :=
      busyEngineAllowsOnlyStatusReads s _ _ hbusy hs rfl
    rw [runSteps_succ_of_step hpoll]
    exact ih _ hbusy rfl

/-! ### What a read cannot show (R108) -/

/-- `s` with other contents of the registers that have no read path. -/
def State.withHidden (s : State) (K : Key) (S : Bank) (w : Work) (q : Sequencer) : State :=
  { s with key := K, bank := S, work := w, seq := q }

section
variable {s t : State} (K : Key) (S : Bank) (w : Work) (q : Sequencer)

theorem readRegister_withHidden {n : Nat} (h : s.readRegister n = .next t) :
    (s.withHidden K S w q).readRegister n = .next (t.withHidden K S w q) := by
  match n, h with
  | 1, h | 2, h | 3, h | 4, h | 5, h => cases h; rfl
  | n + 6, h => rw [readRegister_of_six_le _ (Nat.le_add_left 6 n)] at h; cases h

theorem writeRegister_withHidden {n v : Nat} (h : s.writeRegister n v = .next t) :
    (s.withHidden K S w q).writeRegister n v = .next (t.withHidden K S w q) := by
  obtain ⟨rfl, hv, rfl⟩ | ⟨rfl | rfl, rfl⟩ | ⟨rfl, hv, rfl⟩ | ⟨rfl, hv, rfl⟩ | ⟨rfl, hv, rfl⟩ :=
    writeRegister_cases h
  · exact if_pos hv
  · rfl
  · rfl
  · exact if_pos hv
  · exact if_pos hv
  · exact if_pos hv

theorem readBuffer_withHidden {sp : Space} {a : Nat} (h : s.readBuffer sp a = .next t) :
    (s.withHidden K S w q).readBuffer sp a = .next (t.withHidden K S w q) := by
  by_cases hsp : sp = .outbuf
  · subst hsp
    have ha : a < s.olen := (hasNext_ite_iff (not_hasNext_refused _)).mp ⟨t, h⟩
    cases (if_pos ha).symm.trans h
    exact if_pos ha
  · rw [readBuffer_of_input_space _ a hsp] at h ⊢
    have ha : Config.withinLenMax (a + 1) = true :=
      (hasNext_ite_iff (not_hasNext_fault _)).mp ⟨t, h⟩
    rw [if_pos ha] at h ⊢
    cases h
    rfl

theorem writeBuffer_withHidden {sp : Space} {a : Nat} {b : Byte}
    (h : s.writeBuffer sp a b = .next t) :
    (s.withHidden K S w q).writeBuffer sp a b = .next (t.withHidden K S w q) := by
  obtain ⟨ha, ⟨rfl, rfl⟩ | ⟨rfl, rfl⟩ | ⟨rfl, rfl⟩⟩ := writeBuffer_cases h
  all_goals exact if_pos ha

theorem whenIdle_withHidden {act act' : Outcome State Fault Refusal}
    (hact : act = .next t → act' = .next (t.withHidden K S w q)) (h : s.whenIdle act = .next t) :
    (s.withHidden K S w q).whenIdle act' = .next (t.withHidden K S w q) := by
  obtain ⟨hidle, hnext⟩ := whenIdle_cases h
  exact (whenIdle_of_idle hidle _).trans (hact hnext)

/-- No access of the host reads or writes a hidden register. -/
theorem move_withHidden {e : Event} (haccess : e.isHostAccess = true) (h : move e s = .next t) :
    move e (s.withHidden K S w q) = .next (t.withHidden K S w q) := by
  cases e with
  | engine => cases haccess
  | reset => cases haccess
  | readReg n =>
    by_cases hn : n = 1
    · subst hn
      cases h
      rfl
    · have hread : s.whenIdle (s.readRegister n) = .next t :=
        (hostReadRegister_of_ne s hn).symm.trans h
      exact (hostReadRegister_of_ne _ hn).trans
        (whenIdle_withHidden K S w q (readRegister_withHidden K S w q) hread)
  | writeReg n v => exact whenIdle_withHidden K S w q (writeRegister_withHidden K S w q) h
  | readBuf sp a => exact whenIdle_withHidden K S w q (readBuffer_withHidden K S w q) h
  | writeBuf sp a b => exact whenIdle_withHidden K S w q (writeBuffer_withHidden K S w q) h

end

/-- Settles O40: the access ends in the same state but for the hidden registers, of which neither
the value read nor `STATUS` nor `OUTBUF` is a part. -/
theorem hostReadsNoKeyMaterial : Obligations.HostReadsNoKeyMaterial := by
  intro s t e rest K S w q haccess hs hstep
  rw [step_of_schedule_cons hs] at hstep
  refine ⟨t.withHidden K S w q, ?_, rfl, rfl, rfl⟩
  rw [step_of_schedule_cons (s := { s with key := K, bank := S, work := w, seq := q }) hs]
  exact move_withHidden K S w q haccess hstep

end Sys2Proof.Machine
end

section
/-! PROOFS. The results of `ENC` and `DEC`: byte groups and chunks (R93), concatenation (R93), zero
extension (R90), the round trip (R95), empty input (R91), and the bytes no command reads (R33). -/

namespace Sys2Proof.Machine

/-! ### An output group and its chunk (R93) -/

theorem chunkBlock_congr {c c' : Nat → Byte} (h : ∀ j, j < 8 → c j = c' j) :
    chunkBlock c = chunkBlock c' := by
  simp [chunkBlock, h]

/-- Group `blk` of the output of `ENC` is `ENCBLK` of chunk `blk` (R88). -/
theorem read_outbuf_of_enc {s t : State} (hready : s.ready = true) (h : exec .enc s = .next t)
    {blk j : Nat} (hblk : blk < (s.ilen + 7) / 8) (hj : j < 8) :
    Memory.read t.outbuf (8 * blk + j)
      = (encBlk s.key s.bank (chunkBlock (s.encChunk blk))).bytes[j]? := by
  cases (execEnc_of_ready hready).symm.trans h
  exact read_deliver_outbuf s (encPairs_getElem? s hblk) hj

/-- Group `blk` of the output of `DEC` is `DECBLK` of chunk `blk` (R89). -/
theorem read_outbuf_of_dec {s t : State} (hready : s.ready = true) (h : exec .dec s = .next t)
    {blk j : Nat} (hblk : blk < (s.ilen + 7) / 8) (hj : j < 8) :
    Memory.read t.outbuf (8 * blk + j)
      = (decBlk s.key s.bank (chunkBlock (s.decChunk blk))).bytes[j]? := by
  cases (execDec_of_ready hready).symm.trans h
  exact read_deliver_outbuf s (decPairs_getElem? s hblk) hj

/-- Settles O26: a group is a function of the key, the bank and the eight bytes of its chunk. -/
theorem outputGroupDependsOnlyOnItsChunk : Obligations.OutputGroupDependsOnlyOnItsChunk := by
  intro s s' t t' blk blk' hkey hbank hready hready' hblk hblk'
  refine ⟨fun h h' hchunk j hj => ?_, fun h h' hchunk j hj => ?_⟩
  · rw [read_outbuf_of_enc hready h hblk hj, read_outbuf_of_enc hready' h' hblk' hj, hkey, hbank,
      chunkBlock_congr hchunk]
  · rw [read_outbuf_of_dec hready h hblk hj, read_outbuf_of_dec hready' h' hblk' hj, hkey, hbank,
      chunkBlock_congr hchunk]

/-! ### The result as bytes -/

/-- The result a host reads after a delivery is the bytes of the returned pairs (R42, R87). -/
theorem result_complete_deliver (s : State) (rs : List Block) :
    (s.deliver rs).complete.result = rs.flatMap Block.bytes := by
  refine List.ext_getElem? fun a => ?_
  have hread := Memory.read_ofBytesFrom 0 a (rs.flatMap Block.bytes)
  rw [Nat.zero_add] at hread
  rw [State.result, memRead_getElem?, Nat.zero_add, byteAt_eq_getD, space_outbuf, complete_outbuf,
    complete_olen, deliver_outbuf, deliver_olen, hread, ← flatMap_bytes_length]
  split
  · next ha => rw [List.getElem?_eq_getElem ha, Option.getD_some]
  · next ha => rw [List.getElem?_eq_none (Nat.not_lt.mp ha)]

/-- The result of a ready `ENC`: the padded input, block by block through `ENCBLK`. -/
def encResult (K : Key) (S : Bank) (bs : List Byte) : List Byte :=
  ((blocksOf (pad bs)).map (encBlk K S)).flatMap Block.bytes

/-- The result of a ready `DEC`: the zero-filled input, block by block through `DECBLK`. -/
def decResult (K : Key) (S : Bank) (bs : List Byte) : List Byte :=
  ((blocksOf (zeroFill bs)).map (decBlk K S)).flatMap Block.bytes

theorem exec_enc_result {s : State} (hready : s.ready = true) :
    ∃ t, exec .enc s = .next t ∧ t.result = encResult s.key s.bank s.input :=
  ⟨_, execEnc_of_ready hready, result_complete_deliver s (encPairs s)⟩

theorem exec_dec_result {s : State} (hready : s.ready = true) :
    ∃ t, exec .dec s = .next t ∧ t.result = decResult s.key s.bank s.input :=
  ⟨_, execDec_of_ready hready, result_complete_deliver s (decPairs s)⟩

/-! ### Concatenation at a chunk boundary (R93) -/

theorem zeroFill_of_aligned {bs : List Byte} (h : bs.length % 8 = 0) : zeroFill bs = bs := by
  simp [zeroFill, fillCount_of_aligned h]

/-- The bytes lacking to a multiple of 8 depend on the part after a chunk boundary only. -/
theorem fillCount_add_of_aligned {L : Nat} (h : L % 8 = 0) (M : Nat) :
    fillCount (L + M) = fillCount M := by
  rw [fillCount, fillCount, Nat.add_mod, h, Nat.zero_add, Nat.mod_mod]

theorem pad_append_of_aligned {bs : List Byte} (h : bs.length % 8 = 0) (cs : List Byte) :
    pad (bs ++ cs) = bs ++ pad cs := by
  rw [pad, pad, List.length_append, fillCount_add_of_aligned h, List.append_assoc]

theorem zeroFill_append_of_aligned {bs : List Byte} (h : bs.length % 8 = 0) (cs : List Byte) :
    zeroFill (bs ++ cs) = bs ++ zeroFill cs := by
  rw [zeroFill, zeroFill, List.length_append, fillCount_add_of_aligned h, List.append_assoc]

theorem blocksOf_append_of_aligned {bs : List Byte} (h : bs.length % 8 = 0) (cs : List Byte) :
    blocksOf (bs ++ cs) = blocksOf bs ++ blocksOf cs :=
  blocksOf_append (Nat.mul_div_cancel' (Nat.dvd_of_mod_eq_zero h)).symm cs

theorem encResult_append {K : Key} {S : Bank} {bs : List Byte} (h : bs.length % 8 = 0)
    (cs : List Byte) : encResult K S (bs ++ cs) = encResult K S bs ++ encResult K S cs := by
  simp only [encResult, pad_append_of_aligned h, pad_of_aligned h, blocksOf_append_of_aligned h,
    List.map_append, List.flatMap_append]

theorem decResult_append {K : Key} {S : Bank} {bs : List Byte} (h : bs.length % 8 = 0)
    (cs : List Byte) : decResult K S (bs ++ cs) = decResult K S bs ++ decResult K S cs := by
  simp only [decResult, zeroFill_append_of_aligned h, zeroFill_of_aligned h,
    blocksOf_append_of_aligned h, List.map_append, List.flatMap_append]

/-- Settles O27: at a chunk boundary the filled input, its blocks and their output bytes are those
of the two parts. -/
theorem cipherOfConcatenationIsConcatenation :
    Obligations.CipherOfConcatenationIsConcatenation := by
  intro i s s1 s2 hi hready hready1 hready2 hkey1 hkey2 hbank1 hbank2 hinput haligned
  rw [← input_length] at haligned
  rcases hi with rfl | rfl
  · obtain ⟨t, hexec, hresult⟩ := exec_enc_result hready
    obtain ⟨t1, hexec1, hresult1⟩ := exec_enc_result hready1
    obtain ⟨t2, hexec2, hresult2⟩ := exec_enc_result hready2
    refine ⟨t, t1, t2, hexec, hexec1, hexec2, ?_⟩
    rw [hresult, hresult1, hresult2, hkey1, hkey2, hbank1, hbank2, hinput,
      encResult_append haligned]
  · obtain ⟨t, hexec, hresult⟩ := exec_dec_result hready
    obtain ⟨t1, hexec1, hresult1⟩ := exec_dec_result hready1
    obtain ⟨t2, hexec2, hresult2⟩ := exec_dec_result hready2
    refine ⟨t, t1, t2, hexec, hexec1, hexec2, ?_⟩
    rw [hresult, hresult1, hresult2, hkey1, hkey2, hbank1, hbank2, hinput,
      decResult_append haligned]

/-! ### Zero extension (R90) -/

theorem zeroFill_length_aligned (bs : List Byte) : (zeroFill bs).length % 8 = 0 := by
  rw [zeroFill_length, Nat.mul_mod_right]

/-- The zero bytes up to a multiple of 8 are those that `DEC` fills in. -/
theorem zeroFill_input (s : State) :
    zeroFill s.input = s.input ++ List.replicate (8 * ((s.ilen + 7) / 8) - s.ilen) 0 := by
  rw [zeroFill, input_length, ← fillCount_add, Nat.add_sub_cancel_left]

theorem decResult_zeroFill (K : Key) (S : Bank) (bs : List Byte) :
    decResult K S (zeroFill bs) = decResult K S bs := by
  rw [decResult, decResult, zeroFill_of_aligned (zeroFill_length_aligned bs)]

/-- Settles O29: the second input is the zero-filled first one, and filling it again changes
nothing. -/
theorem decOfZeroExtendedInputIsTheSame : Obligations.DecOfZeroExtendedInputIsTheSame := by
  intro s s' hready hready' hkey hbank hinput
  obtain ⟨t, hexec, hresult⟩ := exec_dec_result hready
  obtain ⟨t', hexec', hresult'⟩ := exec_dec_result hready'
  refine ⟨t, t', hexec, hexec', ?_⟩
  rw [hresult, hresult', hkey, hbank, hinput, ← zeroFill_input, decResult_zeroFill]

/-! ### The round trip (R95) -/

/-- Block encode undoes block decode on an aligned sequence (R86, R87). -/
theorem flatMap_bytes_blocksOf {n : Nat} {bs : List Byte} (h : bs.length = 8 * n) :
    (blocksOf bs).flatMap Block.bytes = bs := by
  induction n generalizing bs with
  | zero => rw [List.eq_nil_of_length_eq_zero h]; rfl
  | succ n ih =>
    obtain ⟨c0, c1, c2, c3, c4, c5, c6, c7, rest, rfl⟩ := exists_chunk (bs := bs) (by omega)
    have hrest : rest.length = 8 * n := by simp only [List.length_cons] at h; omega
    simp [blocksOf, Block.bytes, bytesLE32_le32, ih hrest]

theorem flatMap_bytes_aligned (rs : List Block) : (rs.flatMap Block.bytes).length % 8 = 0 := by
  rw [flatMap_bytes_length, Nat.mul_mod_right]

/-- Decrypting undoes encrypting, block by block. -/
theorem decResult_encResult (K : Key) (S : Bank) (bs : List Byte) :
    decResult K S (encResult K S bs) = pad bs := by
  have hinverse : decBlk K S ∘ encBlk K S = id :=
    funext fun blk => (decblkAndEncblkInvertEachOther K S blk).1
  rw [decResult, encResult, zeroFill_of_aligned (flatMap_bytes_aligned _), blocksOf_flatMap_bytes,
    List.map_map, hinverse, List.map_id, flatMap_bytes_blocksOf (pad_length bs)]

theorem encResult_decResult (K : Key) (S : Bank) (bs : List Byte) :
    encResult K S (decResult K S bs) = zeroFill bs := by
  have hinverse : encBlk K S ∘ decBlk K S = id :=
    funext fun blk => (decblkAndEncblkInvertEachOther K S blk).2
  rw [encResult, decResult, pad_of_aligned (flatMap_bytes_aligned _), blocksOf_flatMap_bytes,
    List.map_map, hinverse, List.map_id, flatMap_bytes_blocksOf (zeroFill_length bs)]

/-- Settles O30: the second command undoes the first on the filled input, which is the input itself
when that is aligned. -/
theorem decryptionOfEncryptionIsThePaddedInput :
    Obligations.DecryptionOfEncryptionIsThePaddedInput := by
  intro s u hready hready' hkey hbank
  have haligned (h : s.ilen % 8 = 0) : s.input.length % 8 = 0 := by rwa [input_length]
  refine ⟨fun t hexec hinput => ?_, fun t hexec hinput hlen => ?_⟩
  · obtain ⟨_, hexec', hresult⟩ := exec_enc_result hready
    cases hexec.symm.trans hexec'
    obtain ⟨v, hback, hresult'⟩ := exec_dec_result hready'
    have hpad : v.result = pad s.input := by
      rw [hresult', hkey, hbank, hinput, hresult, decResult_encResult]
    exact ⟨v, hback, hpad, fun hlen => hpad.trans (pad_of_aligned (haligned hlen))⟩
  · obtain ⟨_, hexec', hresult⟩ := exec_dec_result hready
    cases hexec.symm.trans hexec'
    obtain ⟨v, hback, hresult'⟩ := exec_enc_result hready'
    refine ⟨v, hback, ?_⟩
    rw [hresult', hkey, hbank, hinput, hresult, encResult_decResult,
      zeroFill_of_aligned (haligned hlen)]

/-! ### Empty input (R91) -/

/-- Settles O25: with `ILEN = 0` there is no chunk, so no pair is returned and none delivered. -/
theorem emptyInputIsSuccessWithEmptyOutput : Obligations.EmptyInputIsSuccessWithEmptyOutput := by
  intro s i hi hkey hbank hlen
  have hready : s.ready = true := ready_of_valid hkey hbank
  refine ⟨(s.deliver []).complete, ?_, rfl, rfl, result_complete_deliver s [], hkey, hbank⟩
  rcases hi with rfl | rfl
  · have hnone : encPairs s = [] :=
      List.eq_nil_of_length_eq_zero (by rw [encPairs_length, hlen])
    rw [exec_enc, execEnc_of_ready hready, hnone]
  · have hnone : decPairs s = [] :=
      List.eq_nil_of_length_eq_zero (by rw [decPairs_length, hlen])
    rw [exec_dec, execDec_of_ready hready, hnone]

/-! ### The bytes no command reads (R33) -/

/-- `s` with other contents of the input spaces. -/
def State.withInputs (s : State) (kb sb ib : Memory) : State :=
  { s with keybuf := kb, sboxbuf := sb, inbuf := ib }

theorem keyOperand_congr {s s' : State}
    (h : ∀ a, a < 32 → s'.byteAt .keybuf a = s.byteAt .keybuf a) :
    s'.keyOperand = s.keyOperand := by
  refine congrArg Vector.ofFn (funext fun i => ?_)
  simp only [State.keyWord]
  rw [h _ (by omega), h _ (by omega), h _ (by omega), h _ (by omega)]

theorem bankOperand_congr {s s' : State}
    (h : ∀ a, a < 64 → s'.byteAt .sboxbuf a = s.byteAt .sboxbuf a) :
    s'.bankOperand = s.bankOperand := by
  refine congrArg Vector.ofFn (funext fun i => congrArg Vector.ofFn (funext fun v => ?_))
  simp only [State.bankEntry]
  rw [h _ (by omega)]

/-- Settles O38: `LDKEY` reads 32 bytes when `KLEN = 32`, `LDSBOX` reads 64 when `SLEN ≥ 64`, `ENC`
and `DEC` read the `ILEN` bytes of the input, and a failing command reads none. -/
theorem bytesAboveTheLengthHaveNoInfluence : Obligations.BytesAboveTheLengthHaveNoInfluence := by
  intro i s t kb sb ib h hkb hsb hib
  change exec i (s.withInputs kb sb ib) = .next (t.withInputs kb sb ib)
  have hinput : (s.withInputs kb sb ib).input = s.input := input_congr rfl hib
  obtain ⟨rfl, hlen, rfl⟩ | ⟨rfl, hlen, rfl⟩ | ⟨rfl, hlen, rfl⟩ | ⟨rfl, hlen, rfl⟩
    | ⟨rfl, hready, rfl⟩ | ⟨rfl, hready, rfl⟩ | ⟨rfl | rfl, hready, rfl⟩ := exec_cases h
  · have hkey : (s.withInputs kb sb ib).keyOperand = s.keyOperand :=
      keyOperand_congr fun a ha => hkb a (hlen ▸ ha)
    rw [exec_ldkey, execLdkey_of_klen (s := s.withInputs kb sb ib) hlen, hkey]
    rfl
  · exact execLdkey_of_klen_ne hlen
  · have hbank : (s.withInputs kb sb ib).bankOperand = s.bankOperand :=
      bankOperand_congr fun a ha => hsb a (by omega) ha
    rw [exec_ldsbox, execLdsbox_of_slen (s := s.withInputs kb sb ib) hlen, hbank]
    rfl
  · exact execLdsbox_of_slen_lt hlen
  · have hpairs : encPairs (s.withInputs kb sb ib) = encPairs s := encPairs_congr rfl rfl hinput
    rw [exec_enc, execEnc_of_ready (s := s.withInputs kb sb ib) hready, hpairs]
    rfl
  · have hpairs : decPairs (s.withInputs kb sb ib) = decPairs s := decPairs_congr rfl rfl hinput
    rw [exec_dec, execDec_of_ready (s := s.withInputs kb sb ib) hready, hpairs]
    rfl
  · exact execEnc_of_not_ready hready
  · exact execDec_of_not_ready hready

end Sys2Proof.Machine
end
